-- ==== Sys2Proof/Config.lean ====
section
/-! DEFINITION. The parameters an implementation fixes (spec/00_scope.md R7). The spec leaves no
result value open, so there is no free value here. -/

namespace Sys2Proof

/-- The parameters of R7: the number of context slots, and the FIFO capacities in bytes. The
command-level machine depends on `nctx` only; the finer machine of Machine/Streaming.lean on all. -/
structure Config where
  nctx      : Nat
  dinDepth  : Nat
  doutDepth : Nat
deriving DecidableEq, Repr

/-- The ranges R7 gives: `2 <= NCTX <= 16`, each depth at least 48. -/
abbrev Config.Valid (c : Config) : Prop :=
  2 ≤ c.nctx ∧ c.nctx ≤ 16 ∧ 48 ≤ c.dinDepth ∧ 48 ≤ c.doutDepth

/-- The configuration of `State.reset`: NCTX = 4, the number 95_test_vectors.md is stated for (log
entry 1), and the smallest legal depths (log entry 8). DESIGN CHOICE: R7 leaves all three open. -/
def Config.reference : Config := { nctx := 4, dinDepth := 48, doutDepth := 48 }

end Sys2Proof
end

