-- ==== Sys2Proof/Syntax.lean ====
section
/-! DEFINITION. The command set (spec/30_encoding.md R93, opcode_table.json): one constructor per
row. Slot fields and length words are natural numbers (R92, spec/00_scope.md R10); their ranges
are `Instr.wf` in WellFormed.lean. -/

namespace Sys2Proof

/-- The twelve commands of the Xoodyak core command set, version 1 (R2, R93). `ctx` is the CTX field
(for `clone`, `dst` is CTX and `src` is CTX2); the other arguments are the length words in order. -/
inductive Instr where
  | initHash (ctx : Nat)
  | initKeyed (ctx klen idlen clen : Nat)
  | absorb (ctx len : Nat)
  | squeeze (ctx len : Nat)
  | encrypt (ctx len : Nat)
  | decrypt (ctx len : Nat)
  | squeezeKey (ctx len : Nat)
  | ratchet (ctx : Nat)
  | clone (dst src : Nat)
  | pload
  | pperm (count : Nat)
  | pread
deriving DecidableEq, Repr

end Sys2Proof
end

