-- ==== Sys2Proof/Word.lean ====
section
/-! DEFINITION. The word types of the Xoodyak core (spec/00_scope.md R8 and R9): bytes are 8 bits,
lane words and command words are 32 bits, byte strings are lists with byte 0 first. -/

namespace Sys2Proof

/-- A byte: 8 bits, unsigned (R8). -/
abbrev Byte := BitVec 8

/-- A 32-bit word: a lane of the state (R9) or a word on CMD (R90). -/
abbrev Word := BitVec 32

/-- A byte string `X`, `X[0]` first (R8). -/
abbrev Bytes := List Byte

end Sys2Proof
end

