-- ==== Sys2Proof/Machine/State.lean ====
section
/-! DEFINITION. The architectural state of the core (spec/10_state.md), its reset value
(70_reset_and_hazards.md R301), and the reasons a step can stop. -/

namespace Sys2Proof.Machine

open Sys2Proof

/-- A 384-bit state: exactly 48 bytes (R31). -/
abbrev Block := Vector Byte 48

/-- The all-zero state `0^48`. -/
def Block.zero : Block := Vector.replicate 48 0

/-- R33: Up, the state holds fresh permutation output; Down, it has had input XORed into it. -/
inductive Phase where
  | up
  | down
deriving DecidableEq, Repr

/-- R34: the mode of an object. -/
inductive Mode where
  | hash
  | keyed
deriving DecidableEq, Repr

/-- R30: the three architectural fields of a context slot. -/
structure Context where
  s     : Block
  phase : Phase
  mode  : Mode
deriving DecidableEq, Repr

/-- The constructed Hash object, which is also a slot's reset value (R31, R33, R34). -/
def Context.reset : Context := { s := Block.zero, phase := .up, mode := .hash }

/-- The six fault codes (60_exceptions.md R271). FCODE 0 is the absence of a fault; 7 to 15 are never
written, so they have no constructor. -/
inductive FaultCode where
  | illegal
  | badCtx
  | mode
  | keyEmpty
  | keyTooLong
  | emptySqueeze
deriving DecidableEq, Repr

/-- The state of the core between two commands (10_state.md section 5, 20_memory.md R61). NCTX is the
number of `slots`. `fault` is STATUS.FAULT and STATUS.FCODE together: `none` is FAULT = 0 and
FCODE = 0 (log entry 4). -/
structure State where
  slots : List Context
  p     : Block
  fault : Option FaultCode
  cmd   : List Word
  din   : Bytes
  dout  : Bytes
deriving DecidableEq, Repr

/-- R301: the reset state of a core with `n` context slots. -/
def State.resetWith (n : Nat) : State where
  slots := List.replicate n Context.reset
  p := Block.zero
  fault := none
  cmd := []
  din := []
  dout := []

/-- The machine right after reset, with NCTX = 4 (log entry 1). -/
def State.reset : State := State.resetWith Config.reference.nctx

/-- Why a step stops. -/
inductive Fault where
  /-- Raised by `step` and by nothing else, in a state with STATUS.FAULT = 1: the core decodes no
  command until reset, and the faulted state is a fault outcome (R273). Safe: the spec's core makes no
  step there either. -/
  | stopped (code : FaultCode)
deriving DecidableEq, Repr

/-- Why a step has no meaning. -/
inductive Refusal where
  /-- An instruction whose arm in `exec` has no meaning. No arm raises it in this model. Safe: the
  model stops. -/
  | notModelled (mnemonic : String)
deriving DecidableEq, Repr

end Sys2Proof.Machine
end

