-- ==== Sys2Proof/Machine/Flags.lean ====
section
/-! DEFINITION. The domain-separation flags (spec/41_duplex_primitives.md R170, R171, R172, R179), the
bits of PHASE and MODE, and the STATUS register (10_state.md R37). The core has no condition codes
(R39). -/

namespace Sys2Proof.Machine

open Sys2Proof

/-- The domain-separation flags (R170). -/
inductive Flag where
  | zero | absorbKey | absorb | ratchet | squeezeKey | squeeze | crypt
deriving DecidableEq, Repr

/-- The value of a flag (R170). -/
def Flag.byte : Flag → Byte
  | .zero => 0x00
  | .absorbKey => 0x02
  | .absorb => 0x03
  | .ratchet => 0x10
  | .squeezeKey => 0x20
  | .squeeze => 0x40
  | .crypt => 0x80

/-- The byte that `down` XORs into `S[47]` (R171): masked to its low bit in Hash mode. -/
def Mode.downFlag : Mode → Flag → Byte
  | .hash, f => f.byte &&& 0x01
  | .keyed, f => f.byte

/-- The encoding of PHASE (R33); it appears only inside the model. -/
def Phase.bit : Phase → BitVec 1
  | .up => 0
  | .down => 1

/-- The encoding of MODE (R34); it appears only inside the model. -/
def Mode.bit : Mode → BitVec 1
  | .hash => 0
  | .keyed => 1

/-- FCODE of a fault (60_exceptions.md R271). -/
def FaultCode.number : FaultCode → BitVec 4
  | .illegal => 0x1
  | .badCtx => 0x2
  | .mode => 0x3
  | .keyEmpty => 0x4
  | .keyTooLong => 0x5
  | .emptySqueeze => 0x6

/-- FCODE: 0 while FAULT = 0 (R37). -/
def State.fcode (s : State) : BitVec 4 :=
  match s.fault with
  | none => 0x0
  | some c => c.number

/-- NCTX: the number of context slots (R30). -/
def State.nctx (s : State) : Nat := s.slots.length

/-- The STATUS word (R37) for a given value of IDLE, fields from bit 31 down: reserved 31:13, NCTX 12:8,
FCODE 7:4, reserved 3:2, IDLE, FAULT. -/
def State.statusWord (s : State) (idle : Bool) : Word :=
  0#19 ++ BitVec.ofNat 5 s.nctx ++ s.fcode ++ 0#2 ++ BitVec.ofBool idle
    ++ BitVec.ofBool s.fault.isSome

/-- IDLE (R37) at the command level: between two transitions no command is in progress, and a command
that waits has left its words in CMD, so IDLE is "CMD is empty" (log entry 5). -/
def State.idle (s : State) : Bool := s.cmd.isEmpty

/-- STATUS as the host reads it between two command transitions (R37). -/
def State.status (s : State) : Word := s.statusWord s.idle

end Sys2Proof.Machine
end

