-- ==== Sys2Proof/WellFormed.lean ====
section
/-! DEFINITION. Which terms of `Instr` are commands the words can express: slot fields are 4 bits
(spec/30_encoding.md R91), length words are 32 bits (R92). A slot number of NCTX or more is well
formed: it is a legal encoding that faults with BAD_CTX (R94). -/

namespace Sys2Proof

/-- The slot numbers a command's header carries (R94): CTX, and CTX2 for CLONE. -/
def Instr.slotFields : Instr → List Nat
  | .initHash k => [k]
  | .initKeyed k _ _ _ => [k]
  | .absorb k _ => [k]
  | .squeeze k _ => [k]
  | .encrypt k _ => [k]
  | .decrypt k _ => [k]
  | .squeezeKey k _ => [k]
  | .ratchet k => [k]
  | .clone d s => [d, s]
  | .pload => []
  | .pperm _ => []
  | .pread => []

/-- The length words of a command, in order (R93). -/
def Instr.lengths : Instr → List Nat
  | .initHash _ => []
  | .initKeyed _ kl il cl => [kl, il, cl]
  | .absorb _ n => [n]
  | .squeeze _ n => [n]
  | .encrypt _ n => [n]
  | .decrypt _ n => [n]
  | .squeezeKey _ n => [n]
  | .ratchet _ => []
  | .clone _ _ => []
  | .pload => []
  | .pperm n => [n]
  | .pread => []

/-- Every slot field fits 4 bits and every length word fits 32 bits (R91, R92). -/
def Instr.wf (i : Instr) : Bool :=
  i.slotFields.all (· < 16) && i.lengths.all (· < 2 ^ 32)

end Sys2Proof
end

