-- ==== Sys2Proof/Decode.lean ====
section
/-! DEFINITION. The command words: decoder and encoder (spec/30_encoding.md R90 to R97,
opcode_table.json). The decoder is total on every sequence of words and rejects an illegal header
by name. -/

namespace Sys2Proof

/-- The rows of the opcode map (R93). -/
inductive Opcode where
  | initHash | initKeyed | absorb | squeeze | encrypt | decrypt | squeezeKey | ratchet | clone
  | pload | pperm | pread
deriving DecidableEq, Repr

/-- The OPC value of a row (R93). -/
def Opcode.number : Opcode → Nat
  | .initHash => 0x01
  | .initKeyed => 0x02
  | .absorb => 0x03
  | .squeeze => 0x04
  | .encrypt => 0x05
  | .decrypt => 0x06
  | .squeezeKey => 0x07
  | .ratchet => 0x08
  | .clone => 0x09
  | .pload => 0x10
  | .pperm => 0x11
  | .pread => 0x12

/-- The row with a given OPC value; every other value is reserved and illegal (R93, R95). -/
def Opcode.ofNumber? : Nat → Option Opcode
  | 0x01 => some .initHash
  | 0x02 => some .initKeyed
  | 0x03 => some .absorb
  | 0x04 => some .squeeze
  | 0x05 => some .encrypt
  | 0x06 => some .decrypt
  | 0x07 => some .squeezeKey
  | 0x08 => some .ratchet
  | 0x09 => some .clone
  | 0x10 => some .pload
  | 0x11 => some .pperm
  | 0x12 => some .pread
  | _ => none

/-- NL, the number of length words (R93). -/
def Opcode.lengthWords : Opcode → Nat
  | .initHash => 0
  | .initKeyed => 3
  | .absorb => 1
  | .squeeze => 1
  | .encrypt => 1
  | .decrypt => 1
  | .squeezeKey => 1
  | .ratchet => 0
  | .clone => 0
  | .pload => 0
  | .pperm => 1
  | .pread => 0

/-- Does the row use the CTX field (R94)? -/
def Opcode.usesCtx : Opcode → Bool
  | .pload | .pperm | .pread => false
  | .initHash | .initKeyed | .absorb | .squeeze | .encrypt | .decrypt | .squeezeKey | .ratchet
  | .clone => true

/-- Does the row use the CTX2 field (R94)? CLONE only. -/
def Opcode.usesCtx2 : Opcode → Bool
  | .clone => true
  | .initHash | .initKeyed | .absorb | .squeeze | .encrypt | .decrypt | .squeezeKey | .ratchet
  | .pload | .pperm | .pread => false

/-- The `match` column of opcode_table.json: the fixed bits of a row's header word. -/
def Opcode.tableMatch (r : Opcode) : Word := BitVec.ofNat 32 r.number

/-- The `mask` column of opcode_table.json: which bits of the header word are fixed. -/
def Opcode.tableMask : Opcode → Word
  | .initHash | .initKeyed | .absorb | .squeeze | .encrypt | .decrypt | .squeezeKey | .ratchet =>
    0xFFFFF0FF
  | .clone => 0xFFFF00FF
  | .pload | .pperm | .pread => 0xFFFFFFFF

/-- The field `v[hi:lo]` of a word with `len = hi - lo + 1`, as an unsigned number (R8). -/
def field (v : Word) (lo len : Nat) : Nat := (v.extractLsb' lo len).toNat

/-- What R96's `decode(H)` returns for a legal header: the row with its CTX and CTX2 values. -/
structure Header where
  row  : Opcode
  ctx  : Nat
  ctx2 : Nat
deriving DecidableEq, Repr

/-- R96: the header decoder; `none` is ILLEGAL. RSV must be 0, OPC must be in the map, and a slot
field the row does not use must be 0. -/
def decodeHeader (h : Word) : Option Header :=
  if field h 16 16 ≠ 0 then none
  else
    match Opcode.ofNumber? (field h 0 8) with
    | none => none
    | some row =>
      if ¬ row.usesCtx2 ∧ field h 12 4 ≠ 0 then none
      else if ¬ row.usesCtx ∧ field h 8 4 ≠ 0 then none
      else some { row := row, ctx := field h 8 4, ctx2 := field h 12 4 }

/-- The slot fields a header uses (R94): the ones that BAD_CTX checks. -/
def Header.slotFields (h : Header) : List Nat :=
  (if h.row.usesCtx then [h.ctx] else []) ++ (if h.row.usesCtx2 then [h.ctx2] else [])

/-- The command a header and its length words denote (R93). `ls` holds the NL length words. -/
def Header.command (h : Header) (ls : List Nat) : Instr :=
  match h.row with
  | .initHash => .initHash h.ctx
  | .initKeyed => .initKeyed h.ctx (ls.getD 0 0) (ls.getD 1 0) (ls.getD 2 0)
  | .absorb => .absorb h.ctx (ls.getD 0 0)
  | .squeeze => .squeeze h.ctx (ls.getD 0 0)
  | .encrypt => .encrypt h.ctx (ls.getD 0 0)
  | .decrypt => .decrypt h.ctx (ls.getD 0 0)
  | .squeezeKey => .squeezeKey h.ctx (ls.getD 0 0)
  | .ratchet => .ratchet h.ctx
  | .clone => .clone h.ctx h.ctx2
  | .pload => .pload
  | .pperm => .pperm (ls.getD 0 0)
  | .pread => .pread

/-- What the words at the head of CMD are. -/
inductive Decoded where
  /-- No word has arrived. -/
  | empty
  /-- The first word is an illegal header (R95). -/
  | illegal
  /-- A legal header whose length words have not all arrived (R97, 70_reset_and_hazards.md R304). -/
  | waiting (h : Header)
  /-- A whole command, and the words behind it. -/
  | command (i : Instr) (rest : List Word)
deriving DecidableEq, Repr

/-- R97: the header is decoded first; only then are the NL length words of its row read. -/
def decode : List Word → Decoded
  | [] => .empty
  | w :: ws =>
    match decodeHeader w with
    | none => .illegal
    | some h =>
      if ws.length < h.row.lengthWords then .waiting h
      else .command (h.command ((ws.take h.row.lengthWords).map BitVec.toNat))
        (ws.drop h.row.lengthWords)

/-- The decoder on an instruction laid out in one number, bit 0 the least significant bit of the
header word and each length word 32 bits further up. Bits from `nbits` on are 0. -/
def decodeTableWord (nbits w : Nat) : Option Instr :=
  let v := w % 2 ^ nbits
  match decode ((List.range 4).map fun j => BitVec.ofNat 32 (v >>> (32 * j))) with
  | .command i _ => some i
  | .empty => none
  | .illegal => none
  | .waiting _ => none

/-! The encoder. -/

/-- The row of a command (R93). -/
def Instr.row : Instr → Opcode
  | .initHash _ => .initHash
  | .initKeyed _ _ _ _ => .initKeyed
  | .absorb _ _ => .absorb
  | .squeeze _ _ => .squeeze
  | .encrypt _ _ => .encrypt
  | .decrypt _ _ => .decrypt
  | .squeezeKey _ _ => .squeezeKey
  | .ratchet _ => .ratchet
  | .clone _ _ => .clone
  | .pload => .pload
  | .pperm _ => .pperm
  | .pread => .pread

/-- The header word of a command, fields from bit 31 down as R91 draws them: RSV, CTX2, CTX, OPC. An
unused slot field is 0. -/
def Instr.headerWord (i : Instr) : Word :=
  0#16 ++ BitVec.ofNat 4 (i.slotFields.getD 1 0) ++ BitVec.ofNat 4 (i.slotFields.getD 0 0)
    ++ BitVec.ofNat 8 i.row.number

/-- The words of a command: its header word, then its length words (R90). -/
def encode (i : Instr) : List Word :=
  i.headerWord :: i.lengths.map (BitVec.ofNat 32)

/-- The length of a command in words: `1 + NL(OPC)` (R97). -/
def Instr.words (i : Instr) : Nat := 1 + i.row.lengthWords

/-- The bytes of CMD words on a byte-wide bus, gathered four at a time, bits 7:0 first
(20_memory.md R65). A partial word at the end is not delivered (R70). -/
def cmdWordsOfBytes : Bytes → List Word
  | b0 :: b1 :: b2 :: b3 :: rest => (b3 ++ b2 ++ b1 ++ b0) :: cmdWordsOfBytes rest
  | _ => []

end Sys2Proof
end

