-- ==== Sys2Proof/Machine/Operands.lean ====
section
/-! DEFINITION. The operands of a command: its slots, its length words, and the bytes it moves through
DIN and DOUT (spec/30_encoding.md R94, R97, R98, 20_memory.md R62, R63); and the checks a command makes
on them, in order (60_exceptions.md R271, R274). -/

namespace Sys2Proof.Machine

open Sys2Proof

/-- The rates of a mode (10_state.md R35): RA, the absorb rate. -/
def Mode.absorbRate : Mode → Nat
  | .hash => 16
  | .keyed => 44

/-- The rates of a mode (10_state.md R35): RS, the squeeze rate. -/
def Mode.squeezeRate : Mode → Nat
  | .hash => 16
  | .keyed => 24

/-- `DinRead(n)` (R62): the `n` oldest bytes of DIN, which it removes; `none` while fewer than `n`
bytes have arrived. -/
def State.dinRead (s : State) (n : Nat) : Option (Bytes × State) :=
  if n ≤ s.din.length then some (s.din.take n, { s with din := s.din.drop n }) else none

/-- `DoutWrite(Y)` (R63). -/
def State.doutWrite (s : State) (y : Bytes) : State := { s with dout := s.dout ++ y }

/-- The core has consumed the `n` oldest words of CMD. -/
def State.takeCmd (s : State) (n : Nat) : State := { s with cmd := s.cmd.drop n }

/-- A change of context slot `k`. Nothing happens for a slot that does not exist; the meanings check that
first. -/
def State.onSlot (s : State) (k : Nat) (f : Context → Context) : State :=
  { s with slots := s.slots.modify k f }

/-- A change of context slot `k` that also produces output bytes for DOUT. -/
def State.onSlotOut (s : State) (k : Nat) (f : Context → Bytes × Context) : State :=
  match s.slots[k]? with
  | none => s
  | some c => (s.onSlot k fun _ => (f c).2).doutWrite (f c).1

/-- The number of DIN bytes a command reads (R98). -/
def dinCount : Instr → Nat
  | .initHash _ => 0
  | .initKeyed _ klen idlen clen => klen + idlen + clen
  | .absorb _ len => len
  | .squeeze _ _ => 0
  | .encrypt _ len => len
  | .decrypt _ len => len
  | .squeezeKey _ _ => 0
  | .ratchet _ => 0
  | .clone _ _ => 0
  | .pload => 48
  | .pperm _ => 0
  | .pread => 0

/-- The number of DOUT bytes a command writes (R98). -/
def doutCount : Instr → Nat
  | .initHash _ => 0
  | .initKeyed _ _ _ _ => 0
  | .absorb _ _ => 0
  | .squeeze _ len => len
  | .encrypt _ len => len
  | .decrypt _ len => len
  | .squeezeKey _ len => len
  | .ratchet _ => 0
  | .clone _ _ => 0
  | .pload => 0
  | .pperm _ => 0
  | .pread => 48

/-! The checks (R271). Each is `none` where it passes. -/

/-- BAD_CTX: a slot field in use holds a value of NCTX or more. -/
def State.checkSlots (s : State) (ks : List Nat) : Option FaultCode :=
  if ks.all (· < s.slots.length) then none else some .badCtx

/-- MODE: a keyed-only command addresses a slot in Hash mode (43_keyed_commands.md R230). -/
def State.checkKeyed (s : State) (k : Nat) : Option FaultCode :=
  match s.slots[k]? with
  | none => none
  | some c => if c.mode = .keyed then none else some .mode

/-- KEY_EMPTY: KLEN = 0. -/
def checkKeyEmpty (klen : Nat) : Option FaultCode :=
  if klen = 0 then some .keyEmpty else none

/-- KEY_TOO_LONG: KLEN + IDLEN > 44, an unbounded sum (00_scope.md R10). -/
def checkKeyLength (klen idlen : Nat) : Option FaultCode :=
  if klen + idlen > 44 then some .keyTooLong else none

/-- EMPTY_SQUEEZE: LEN = 0. -/
def checkSqueeze (len : Nat) : Option FaultCode :=
  if len = 0 then some .emptySqueeze else none

/-- The checks of a command in the order of R274; the first that fails is the command's one fault.
ILLEGAL comes before them all and is the decoder's. -/
def State.check (s : State) : Instr → Option FaultCode
  | .initHash k => s.checkSlots [k]
  | .initKeyed k klen idlen _ => s.checkSlots [k] <|> checkKeyEmpty klen <|> checkKeyLength klen idlen
  | .absorb k _ => s.checkSlots [k]
  | .squeeze k len => s.checkSlots [k] <|> checkSqueeze len
  | .encrypt k _ => s.checkSlots [k] <|> s.checkKeyed k
  | .decrypt k _ => s.checkSlots [k] <|> s.checkKeyed k
  | .squeezeKey k len => s.checkSlots [k] <|> s.checkKeyed k <|> checkSqueeze len
  | .ratchet k => s.checkSlots [k] <|> s.checkKeyed k
  | .clone d r => s.checkSlots [d, r]
  | .pload => none
  | .pperm _ => none
  | .pread => none

end Sys2Proof.Machine
end

