-- ==== Sys2Proof/Machine/Permutation.lean ====
section
/-! DEFINITION. The permutation engine (spec/40_permutation.md R130 to R143) and the word view of a
state (10_state.md R32). The round is the published one, as 90_conflicts.md C1 to C3 resolve it. -/

namespace Sys2Proof.Machine

open Sys2Proof

/-- R9: rotation of a 32-bit word to the left by `n`, for `n <= 31`. -/
def rotl (x : Word) (n : Nat) : Word := (x <<< n) ||| (x >>> (32 - n))

/-- R9: `LE32(b0, b1, b2, b3)`. -/
def le32 (b0 b1 b2 b3 : Byte) : Word := b3 ++ b2 ++ b1 ++ b0

/-- A plane: four lanes (R32). -/
structure Plane where
  l0 : Word
  l1 : Word
  l2 : Word
  l3 : Word
deriving DecidableEq, Repr

/-- Lane `i` of a plane. Lane indices are `Fin 4`, so `i + 3` is `(i+3) mod 4`. -/
def Plane.get (a : Plane) : Fin 4 → Word
  | 0 => a.l0
  | 1 => a.l1
  | 2 => a.l2
  | 3 => a.l3

/-- The plane with lanes `f 0` to `f 3`. -/
def Plane.ofFn (f : Fin 4 → Word) : Plane := ⟨f 0, f 1, f 2, f 3⟩

/-- The word view: planes A, B and C (R32). -/
structure Planes where
  a : Plane
  b : Plane
  c : Plane
deriving DecidableEq, Repr

/-- Word `W[j]` of a state, little-endian (R32). -/
def Block.word (s : Block) (j : Fin 12) : Word :=
  le32 s[4 * j.val] s[4 * j.val + 1] s[4 * j.val + 2] s[4 * j.val + 3]

/-- `words(S)` (R32): `A[i] = W[i]`, `B[i] = W[4+i]`, `C[i] = W[8+i]`. -/
def Block.planes (s : Block) : Planes where
  a := ⟨s.word 0, s.word 1, s.word 2, s.word 3⟩
  b := ⟨s.word 4, s.word 5, s.word 6, s.word 7⟩
  c := ⟨s.word 8, s.word 9, s.word 10, s.word 11⟩

/-- Word `W[j]` of the word view, `j < 12`. -/
def Planes.word (w : Planes) (j : Nat) : Word :=
  (if j / 4 = 0 then w.a else if j / 4 = 1 then w.b else w.c).get (Fin.ofNat 4 j)

/-- `bytes(W)` (R32): `S[4j+t] = W[j][8t+7:8t]`. -/
def Planes.bytes (w : Planes) : Block :=
  Vector.ofFn fun i => (w.word (i.val / 4)).extractLsb' (8 * (i.val % 4)) 8

/-- Theta (R131). -/
def theta (w : Planes) : Planes :=
  let p := Plane.ofFn fun i => w.a.get i ^^^ w.b.get i ^^^ w.c.get i
  let e := Plane.ofFn fun i => rotl (p.get (i + 3)) 5 ^^^ rotl (p.get (i + 3)) 14
  { a := Plane.ofFn fun i => w.a.get i ^^^ e.get i
    b := Plane.ofFn fun i => w.b.get i ^^^ e.get i
    c := Plane.ofFn fun i => w.c.get i ^^^ e.get i }

/-- Rho-west (R132): plane B moves one lane up, plane C rotates by 11. -/
def rhoWest (w : Planes) : Planes :=
  { w with
    b := Plane.ofFn fun i => w.b.get (i + 3)
    c := Plane.ofFn fun i => rotl (w.c.get i) 11 }

/-- Iota (R133): the round constant into lane 0 of plane A. -/
def iota (rc : Word) (w : Planes) : Planes :=
  { w with a := { w.a with l0 := w.a.l0 ^^^ rc } }

/-- Chi (R135): every output from the lanes before the update. -/
def chi (w : Planes) : Planes where
  a := Plane.ofFn fun i => w.a.get i ^^^ (~~~ w.b.get i &&& w.c.get i)
  b := Plane.ofFn fun i => w.b.get i ^^^ (~~~ w.c.get i &&& w.a.get i)
  c := Plane.ofFn fun i => w.c.get i ^^^ (~~~ w.a.get i &&& w.b.get i)

/-- Rho-east: plane B rotates by 1 (R136), plane C in its word form (R138). -/
def rhoEast (w : Planes) : Planes :=
  { w with
    b := Plane.ofFn fun i => rotl (w.b.get i) 1
    c := Plane.ofFn fun i => rotl (w.c.get (i + 2)) 8 }

/-- The byte table T of R137. -/
def eastTable : List Nat := [11, 8, 9, 10, 15, 12, 13, 14, 3, 0, 1, 2, 7, 4, 5, 6]

/-- Rho-east on plane C in its normative byte form (R137): `c'[j] <- c[T[j]]` on state bytes 32 to
47; the other bytes stay. `rhoEast` uses the word form; the two are equal (R138). -/
def rhoEastCBytes (s : Block) : Block :=
  Vector.ofFn fun i => if 32 ≤ i.val then s.toList.getD (32 + eastTable.getD (i.val - 32) 0) 0 else s[i.val]

/-- `Round(W, rc)` (R139). -/
def round (rc : Word) (w : Planes) : Planes := rhoEast (chi (iota rc (rhoWest (theta w))))

/-- The round constants in round order (R134). -/
def roundConstants : List Word :=
  [0x00000058, 0x00000038, 0x000003C0, 0x000000D0, 0x00000120, 0x00000014,
   0x00000060, 0x0000002C, 0x00000380, 0x000000F0, 0x000001A0, 0x00000012]

/-- Round `r` of the permutation (R140): it uses `RC[r]`. -/
def roundAt (r : Nat) (w : Planes) : Planes := round (roundConstants.getD r 0) w

/-- Rounds `r`, `r+1`, …, `r+k-1`, in that order. -/
def roundsFrom (r : Nat) : Nat → Planes → Planes
  | 0, w => w
  | k + 1, w => roundsFrom (r + 1) k (roundAt r w)

/-- `permute(S)` (R141): twelve rounds between the two projections of the word view. -/
def permute (s : Block) : Block := (roundsFrom 0 12 s.planes).bytes

/-- `permute` applied `n` times (R145). -/
def permuteTimes : Nat → Block → Block
  | 0, s => s
  | n + 1, s => permuteTimes n (permute s)

end Sys2Proof.Machine
end

