-- ==== Sys2Proof/Machine/Ops.lean ====
section
/-! DEFINITION. The shared operations: the duplex primitives (spec/41_duplex_primitives.md), crypt
(43_keyed_commands.md R232), taking a fault (60_exceptions.md R272) and the reset that alone ends it
(70_reset_and_hazards.md R300), and the one shape every command has (`perform`). -/

namespace Sys2Proof.Machine

open Sys2Proof

/-! Bytes of a state. -/

/-- XOR of a string into a state from byte 0 on: `S[i] <- S[i] ⊕ X[i]` for `i < |X|`. -/
def Block.xorBytes (s : Block) (x : Bytes) : Block := Vector.ofFn fun i => s[i.val] ^^^ x.getD i.val 0

/-- XOR of one byte into a state: `S[n] <- S[n] ⊕ b`. -/
def Block.xorAt (s : Block) (n : Nat) (b : Byte) : Block :=
  Vector.ofFn fun i => if i.val = n then s[i.val] ^^^ b else s[i.val]

/-- `S[0] ∥ … ∥ S[n-1]`. -/
def Block.first (s : Block) (n : Nat) : Bytes := s.toList.take n

/-- XOR of an input chunk with the first bytes of a state: `[ X[i] ⊕ S[i] for i in 0..|X|-1 ]` (R232). -/
def Block.mask (s : Block) (x : Bytes) : Bytes := List.zipWith (· ^^^ ·) x s.toList

/-! The primitives. -/

/-- `down(X, f)` (R171). -/
def Context.down (c : Context) (x : Bytes) (f : Flag) : Context :=
  { c with
    s := ((c.s.xorBytes x).xorAt x.length 0x01).xorAt 47 (c.mode.downFlag f)
    phase := .down }

/-- The first half of `up(f)` (R172): in Keyed mode the flag is XORed into `S[47]`. -/
def Context.upFlag (c : Context) (f : Flag) : Context :=
  match c.mode with
  | .hash => c
  | .keyed => { c with s := c.s.xorAt 47 f.byte }

/-- `up(f)` (R172). It reads PHASE nowhere. -/
def Context.up (c : Context) (f : Flag) : Context :=
  { c.upFlag f with s := permute (c.upFlag f).s, phase := .up }

/-- The number of chunks of a string of length `n` at rate `r`: `max(1, ⌈n/r⌉)` (R173). -/
def numChunks (n r : Nat) : Nat := max 1 ((n + r - 1) / r)

/-- `split(X, r)` (R173): one empty chunk for the empty string, else `X[k·r .. min((k+1)·r, |X|))` for
each `k`. -/
def split (x : Bytes) (r : Nat) : List Bytes :=
  (List.range (numChunks x.length r)).map fun k => (x.drop (k * r)).take r

/-- `up_to(n, f)` (R174). -/
def Context.upTo (c : Context) (n : Nat) (f : Flag) : Bytes × Context :=
  ((c.up f).s.first n, c.up f)

/-- `if PHASE != Up: up(Zero)` (R175). -/
def Context.ensureUp (c : Context) : Context :=
  match c.phase with
  | .up => c
  | .down => c.up .zero

/-- The loop of `absorb_any` over its chunks (R175): the first carries `f`, the others Zero. -/
def Context.absorbChunks (c : Context) : List Bytes → Flag → Context
  | [], _ => c
  | x :: xs, f => (c.ensureUp.down x f).absorbChunks xs .zero

/-- `absorb_any(X, r, f)` (R175). -/
def Context.absorbAny (c : Context) (x : Bytes) (r : Nat) (f : Flag) : Context :=
  c.absorbChunks (split x r) f

/-- The loop of `squeeze_any` (R176) with `left` bytes to go. Every turn produces at least one byte, so
`fuel = left` is enough. -/
def Context.squeezeMore (c : Context) : Nat → Nat → Bytes × Context
  | 0, _ => ([], c)
  | fuel + 1, left =>
    if left = 0 then ([], c)
    else
      let y := (c.down [] .zero).upTo (min left c.mode.squeezeRate) .zero
      let rest := y.2.squeezeMore fuel (left - min left c.mode.squeezeRate)
      (y.1 ++ rest.1, rest.2)

/-- `squeeze_any(n, f)` (R176), for `n >= 1`. -/
def Context.squeezeAny (c : Context) (n : Nat) (f : Flag) : Bytes × Context :=
  let y := c.upTo (min n c.mode.squeezeRate) f
  let left := n - min n c.mode.squeezeRate
  let rest := y.2.squeezeMore left left
  (y.1 ++ rest.1, rest.2)

/-- The block size of crypt, R_CRYPT (00_scope.md R6). -/
def cryptRate : Nat := 24

/-- The second half of a crypt turn (R232), after the `up`: output bytes from the permuted state, and
`down` of the ciphertext. -/
def Context.cryptBlock (c : Context) (x : Bytes) (decrypting : Bool) : Bytes × Context :=
  let o := c.s.mask x
  (o, c.down (if decrypting then x else o) .zero)

/-- The loop of crypt over its chunks (R232): the first `up` carries `f`, the others Zero. -/
def Context.cryptChunks (c : Context) (decrypting : Bool) : List Bytes → Flag → Bytes × Context
  | [], _ => ([], c)
  | x :: xs, f =>
    let y := (c.up f).cryptBlock x decrypting
    let rest := y.2.cryptChunks decrypting xs .zero
    (y.1 ++ rest.1, rest.2)

/-- `crypt(X, decrypt)` (R232). -/
def Context.crypt (c : Context) (x : Bytes) (decrypting : Bool) : Bytes × Context :=
  c.cryptChunks decrypting (split x cryptRate) .crypt

/-- A newly constructed object: zero state, Up, in the given mode (42_duplex_commands.md R200,
43_keyed_commands.md R231). -/
def Context.construct (m : Mode) : Context := { s := Block.zero, phase := .up, mode := m }

/-! Faults and reset. -/

/-- How many words of CMD a faulting command has consumed (R272(c)): ILLEGAL and BAD_CTX are raised from
the header word alone, the other codes after the `n` words of the command. -/
def FaultCode.wordsConsumed (n : Nat) : FaultCode → Nat
  | .illegal => 1
  | .badCtx => 1
  | .mode => n
  | .keyEmpty => n
  | .keyTooLong => n
  | .emptySqueeze => n

/-- Fault entry (R272) for a command of `n` words: slots, P, DIN and DOUT stay, the words are consumed,
FAULT and FCODE are set. Both are sticky: the code of the first fault stays (10_state.md R37). -/
def State.enterFault (s : State) (code : FaultCode) (n : Nat) : State :=
  { s.takeCmd (code.wordsConsumed n) with fault := some (s.fault.getD code) }

/-- The reset event (R300), the only way out of the faulted state (R273, R275): every slot, P, FAULT,
FCODE and the three FIFOs. The number of slots is hardwired. -/
def State.resetEvent (s : State) : State := State.resetWith s.slots.length

/-- The one shape of a command (R97, R272, R304): its checks first, then the wait for its DIN bytes, then its
effect, as one transition. The effect gets the bytes the command reads and the state in which its words
and those bytes are consumed. A wait leaves the state as it is (log entry 2). -/
def perform (i : Instr) (effect : Bytes → State → State) (s : State) :
    Host.Outcome State Fault Refusal :=
  match s.check i with
  | some code => .next (s.enterFault code i.words)
  | none =>
    match s.dinRead (dinCount i) with
    | none => .next s
    | some (x, t) => .next (effect x (t.takeCmd i.words))

/-- Words that do not make a whole command (R95, R97, R304): an illegal header faults; a legal header whose
length words have not arrived faults if its slot fields do (BAD_CTX is raised from the header word
alone), else the core waits; with no word the core is idle. -/
def State.incomplete (s : State) : Decoded → State
  | .empty => s
  | .illegal => s.enterFault .illegal 1
  | .waiting h =>
    match s.checkSlots h.slotFields with
    | some code => s.enterFault code 1
    | none => s
  | .command _ _ => s

end Sys2Proof.Machine
end

