-- ==== Sys2Proof/Machine/Duplex.lean ====
section
/-! DEFINITION. The duplex commands that work in both modes (spec/42_duplex_commands.md R200 to R203). -/

namespace Sys2Proof.Machine

open Sys2Proof

/-- INIT_HASH (R200). -/
def execInitHash (ctx : Nat) (s : State) : Host.Outcome State Fault Refusal :=
  perform (.initHash ctx) (fun _ t => t.onSlot ctx fun _ => Context.construct .hash) s

/-- ABSORB (R201), at the absorb rate of the slot's mode. -/
def execAbsorb (ctx len : Nat) (s : State) : Host.Outcome State Fault Refusal :=
  perform (.absorb ctx len)
    (fun x t => t.onSlot ctx fun c => c.absorbAny x c.mode.absorbRate .absorb) s

/-- SQUEEZE (R202). -/
def execSqueeze (ctx len : Nat) (s : State) : Host.Outcome State Fault Refusal :=
  perform (.squeeze ctx len) (fun _ t => t.onSlotOut ctx fun c => c.squeezeAny len .squeeze) s

/-- CLONE (R203): the destination slot becomes a copy of the source slot. -/
def execClone (dst src : Nat) (s : State) : Host.Outcome State Fault Refusal :=
  perform (.clone dst src) (fun _ t => t.onSlot dst fun c => t.slots.getD src c) s

end Sys2Proof.Machine
end

