-- ==== Sys2Proof/Machine/Keyed.lean ====
section
/-! DEFINITION. The keyed wrapper commands (spec/43_keyed_commands.md R230 to R237). -/

namespace Sys2Proof.Machine

open Sys2Proof

/-- The object INIT_KEYED constructs (R231) from the bytes it reads, the key, the id and the counter in a
row: mode Keyed first, then the key material at rate 44, then the counter, if there is one, at rate 1. -/
def Context.keyedFrom (x : Bytes) (klen idlen clen : Nat) : Context :=
  let key := x.take klen
  let id := (x.drop klen).take idlen
  let counter := (x.drop (klen + idlen)).take clen
  let c := (Context.construct .keyed).absorbAny (key ++ id ++ [BitVec.ofNat 8 idlen]) 44 .absorbKey
  if clen > 0 then c.absorbAny counter 1 .zero else c

/-- INIT_KEYED (R231). -/
def execInitKeyed (ctx klen idlen clen : Nat) (s : State) : Host.Outcome State Fault Refusal :=
  perform (.initKeyed ctx klen idlen clen)
    (fun x t => t.onSlot ctx fun _ => Context.keyedFrom x klen idlen clen) s

/-- ENCRYPT (R233). -/
def execEncrypt (ctx len : Nat) (s : State) : Host.Outcome State Fault Refusal :=
  perform (.encrypt ctx len) (fun x t => t.onSlotOut ctx fun c => c.crypt x false) s

/-- DECRYPT (R234). -/
def execDecrypt (ctx len : Nat) (s : State) : Host.Outcome State Fault Refusal :=
  perform (.decrypt ctx len) (fun x t => t.onSlotOut ctx fun c => c.crypt x true) s

/-- SQUEEZE_KEY (R235). -/
def execSqueezeKey (ctx len : Nat) (s : State) : Host.Outcome State Fault Refusal :=
  perform (.squeezeKey ctx len) (fun _ t => t.onSlotOut ctx fun c => c.squeezeAny len .squeezeKey) s

/-- L_RATCHET, the bytes that RATCHET squeezes (00_scope.md R6). -/
def ratchetLength : Nat := 16

/-- What RATCHET does to an object (R236): 16 bytes squeezed with flag Ratchet are absorbed again. -/
def Context.ratchet (c : Context) : Context :=
  let y := c.squeezeAny ratchetLength .ratchet
  y.2.absorbAny y.1 y.2.mode.absorbRate .zero

/-- RATCHET (R236). -/
def execRatchet (ctx : Nat) (s : State) : Host.Outcome State Fault Refusal :=
  perform (.ratchet ctx) (fun _ t => t.onSlot ctx Context.ratchet) s

end Sys2Proof.Machine
end

