-- ==== Sys2Proof/Machine/RawPermutation.lean ====
section
/-! DEFINITION. The raw permutation commands (spec/40_permutation.md R144 to R146). -/

namespace Sys2Proof.Machine

open Sys2Proof

/-- The state made of the first 48 bytes of a string (R144: `P[i] <- X[i]`). -/
def Block.ofBytes (x : Bytes) : Block := Vector.ofFn fun i => x.getD i.val 0

/-- PLOAD (R144). -/
def execPload (s : State) : Host.Outcome State Fault Refusal :=
  perform .pload (fun x t => { t with p := Block.ofBytes x }) s

/-- PPERM (R145). -/
def execPperm (count : Nat) (s : State) : Host.Outcome State Fault Refusal :=
  perform (.pperm count) (fun _ t => { t with p := permuteTimes count t.p }) s

/-- PREAD (R146). -/
def execPread (s : State) : Host.Outcome State Fault Refusal :=
  perform .pread (fun _ t => t.doutWrite t.p.toList) s

end Sys2Proof.Machine
end

