-- ==== Sys2Proof/Machine/Dispatch.lean ====
section
/-! DEFINITION. One arm per command (spec/30_encoding.md R93). -/

namespace Sys2Proof.Machine

open Sys2Proof

def exec (i : Instr) (s : State) : Host.Outcome State Fault Refusal :=
  match i with
  | .initHash ctx => Sys2Proof.Machine.execInitHash ctx s
  | .initKeyed ctx klen idlen clen => Sys2Proof.Machine.execInitKeyed ctx klen idlen clen s
  | .absorb ctx len => Sys2Proof.Machine.execAbsorb ctx len s
  | .squeeze ctx len => Sys2Proof.Machine.execSqueeze ctx len s
  | .encrypt ctx len => Sys2Proof.Machine.execEncrypt ctx len s
  | .decrypt ctx len => Sys2Proof.Machine.execDecrypt ctx len s
  | .squeezeKey ctx len => Sys2Proof.Machine.execSqueezeKey ctx len s
  | .ratchet ctx => Sys2Proof.Machine.execRatchet ctx s
  | .clone dst src => Sys2Proof.Machine.execClone dst src s
  | .pload => Sys2Proof.Machine.execPload s
  | .pperm count => Sys2Proof.Machine.execPperm count s
  | .pread => Sys2Proof.Machine.execPread s

end Sys2Proof.Machine
end

