-- ==== Sys2Proof/Machine/Step.lean ====
section
/-! DEFINITION. One step of the core: one command, taken from the head of CMD as one atomic transition
(spec/20_memory.md R66), or the fault outcome of a core that has stopped (60_exceptions.md R273). -/

namespace Sys2Proof.Machine

open Sys2Proof

/-- One step. A core with FAULT = 1 decodes nothing and stays stopped (R273). -/
def step (s : State) : Host.Outcome State Fault Refusal :=
  match s.fault with
  | some code => .fault (.stopped code)
  | none =>
    match decode s.cmd with
    | .command i _ => exec i s
    | d => .next (s.incomplete d)

/-- How a program comes to run from reset is the host's doing: it writes words to CMD and bytes to DIN
(70_reset_and_hazards.md R302, log entry 7). This puts one instruction at the head of CMD, the words `w`
numbers from its header's bit 0 on, and, where DIN holds fewer bytes than the command reads, zero bytes
behind them, so that the next step runs the command and does not wait. -/
def State.withFetchWord (s : State) (nbits w : Nat) : State :=
  let v := w % 2 ^ nbits
  let words := (List.range 4).map fun j => BitVec.ofNat 32 (v >>> (32 * j))
  match decode words with
  | .command i _ =>
    { s with
      cmd := words.take i.words ++ s.cmd
      din := s.din ++ List.replicate (dinCount i - s.din.length) 0 }
  | _ => { s with cmd := words.take 1 ++ s.cmd }

end Sys2Proof.Machine
end

