-- ==== Sys2Proof/Machine/Program.lean ====
section
/-! DEFINITION. Command streams: the pseudo-commands of the assembler (spec/30_encoding.md R100) and the check a
model may make when a program is built (60_exceptions.md R277). The core sees neither. -/

namespace Sys2Proof.Machine

open Sys2Proof

/-- The pseudo-commands (R100), operands in the order the table gives them. -/
inductive Pseudo where
  | hash (k len outlen : Nat)
  | aeadSeal (k klen nlen adlen plen tlen : Nat)
  | aeadOpen (k klen nlen adlen clen tlen : Nat)
  | pkat (count : Nat)
deriving DecidableEq, Repr

/-- The expansion of a pseudo-command (R100). -/
def Pseudo.expand : Pseudo → List Instr
  | .hash k len outlen => [.initHash k, .absorb k len, .squeeze k outlen]
  | .aeadSeal k klen nlen adlen plen tlen =>
    [.initKeyed k klen 0 0, .absorb k nlen, .absorb k adlen, .encrypt k plen, .squeeze k tlen]
  | .aeadOpen k klen nlen adlen clen tlen =>
    [.initKeyed k klen 0 0, .absorb k nlen, .absorb k adlen, .decrypt k clen, .squeeze k tlen]
  | .pkat count => [.pload, .pperm count, .pread]

/-- The words of a command stream. -/
def wordsOf (is : List Instr) : List Word := is.flatMap encode

/-- The commands that act on Keyed objects only (43_keyed_commands.md R230). -/
def keyedOnly : Instr → Bool
  | .encrypt _ _ | .decrypt _ _ | .squeezeKey _ _ | .ratchet _ => true
  | .initHash _ | .initKeyed _ _ _ _ | .absorb _ _ | .squeeze _ _ | .clone _ _ | .pload | .pperm _
  | .pread => false

/-- The modes of the slots after a command that completes (43_keyed_commands.md R237). -/
def modesAfter (modes : List Mode) : Instr → List Mode
  | .initHash k => modes.set k .hash
  | .initKeyed k _ _ _ => modes.set k .keyed
  | .clone d r => modes.set d (modes.getD r .hash)
  | .absorb _ _ | .squeeze _ _ | .encrypt _ _ | .decrypt _ _ | .squeezeKey _ _ | .ratchet _ | .pload
  | .pperm _ | .pread => modes

/-- R277: a model may refuse, when building a program, a keyed-only command on a slot that is in Hash mode. From
the given modes, no command of the stream is one. -/
def modeSafe (modes : List Mode) : List Instr → Bool
  | [] => true
  | i :: is =>
    (if keyedOnly i then modes[i.slotFields.getD 0 0]? != some Mode.hash else true)
      && modeSafe (modesAfter modes i) is

/-- The modes of the slots of a state. -/
def State.modes (s : State) : List Mode := s.slots.map Context.mode

end Sys2Proof.Machine
end

