-- ==== Sys2Proof/Machine/Assembler.lean ====
section
/-! DEFINITION. The assembler's line syntax (spec/30_encoding.md R99, R100): a line of characters to commands or
data. The core never sees it. Blank space around operands, the empty line and the case of hexadecimal digits
are the model's (log entry 14). -/

namespace Sys2Proof.Machine

open Sys2Proof

/-- The mnemonic of a row (R93). -/
def mnemonicOf : Opcode → String
  | .initHash => "INIT_HASH"
  | .initKeyed => "INIT_KEYED"
  | .absorb => "ABSORB"
  | .squeeze => "SQUEEZE"
  | .encrypt => "ENCRYPT"
  | .decrypt => "DECRYPT"
  | .squeezeKey => "SQUEEZE_KEY"
  | .ratchet => "RATCHET"
  | .clone => "CLONE"
  | .pload => "PLOAD"
  | .pperm => "PPERM"
  | .pread => "PREAD"

/-- All rows of R93, in its order. -/
def allRows : List Opcode :=
  [.initHash, .initKeyed, .absorb, .squeeze, .encrypt, .decrypt, .squeezeKey, .ratchet, .clone, .pload,
   .pperm, .pread]

/-- A line of source: nothing, commands, or data for the streams (R99). -/
inductive Line where
  | empty
  | commands (is : List Instr)
  | din (x : Bytes)
  | dout (x : Bytes)
deriving DecidableEq, Repr

def isBlank (c : Char) : Bool := c == ' ' || c == '\t'

/-- A run of characters without the blanks around it. -/
def trim (cs : List Char) : List Char := ((cs.dropWhile isBlank).reverse.dropWhile isBlank).reverse

/-- The pieces of a text between the commas. -/
def commaPieces : List Char → List (List Char)
  | [] => [[]]
  | c :: cs =>
    if c == ',' then [] :: commaPieces cs
    else
      match commaPieces cs with
      | [] => [[c]]
      | p :: ps => (c :: p) :: ps

/-- The value of a digit, decimal or hexadecimal. -/
def digitValue (c : Char) : Option Nat :=
  if '0' ≤ c ∧ c ≤ '9' then some (c.toNat - '0'.toNat)
  else if 'a' ≤ c ∧ c ≤ 'f' then some (c.toNat - 'a'.toNat + 10)
  else if 'A' ≤ c ∧ c ≤ 'F' then some (c.toNat - 'A'.toNat + 10)
  else none

/-- The number that digits of a base write, with `acc` read before them. -/
def digitsValue (base : Nat) : List Char → Nat → Option Nat
  | [], acc => some acc
  | c :: cs, acc =>
    match digitValue c with
    | none => none
    | some d => if d < base then digitsValue base cs (base * acc + d) else none

/-- A length or count: decimal, or hexadecimal with the 0x before it (R99). -/
def numberOperand : List Char → Option Nat
  | [] => none
  | c :: cs =>
    match c == '0', cs with
    | true, 'x' :: d :: ds => digitsValue 16 (d :: ds) 0
    | _, _ => digitsValue 10 (c :: cs) 0

/-- A slot operand: `c` and the slot number in decimal (R99). -/
def slotOperand : List Char → Option Nat
  | c :: d :: ds => if c == 'c' then digitsValue 10 (d :: ds) 0 else none
  | _ => none

/-- Hexadecimal bytes, two digits each, blanks between them allowed (R99). -/
def hexBytes : List Char → Option Bytes
  | [] => some []
  | c :: cs =>
    if isBlank c then hexBytes cs
    else
      match cs with
      | [] => none
      | d :: ds =>
        match digitValue c, digitValue d, hexBytes ds with
        | some h, some l, some rest => some (BitVec.ofNat 8 (16 * h + l) :: rest)
        | _, _, _ => none

/-- The operands of a line: `n` slots first, then `m` numbers. -/
def operands (n m : Nat) (ps : List (List Char)) : Option (List Nat × List Nat) :=
  if ps.length = n + m then
    match (ps.take n).mapM slotOperand, (ps.drop n).mapM numberOperand with
    | some ks, some ls => some (ks, ls)
    | _, _ => none
  else none

/-- The number of slot operands of a row (R99). -/
def slotOperandsOf (r : Opcode) : Nat := (if r.usesCtx then 1 else 0) + (if r.usesCtx2 then 1 else 0)

/-- A command line: the operands of R99 for the row, each within the range its field or word can hold. -/
def assembleRow (r : Opcode) (ps : List (List Char)) : Option Instr :=
  match operands (slotOperandsOf r) r.lengthWords ps with
  | none => none
  | some (ks, ls) =>
    let i := Header.command { row := r, ctx := ks.getD 0 0, ctx2 := ks.getD 1 0 } ls
    if i.wf then some i else none

/-- A pseudo-command line (R100). -/
def assemblePseudo (name : List Char) (ps : List (List Char)) : Option Pseudo :=
  if name = "HASH".toList then
    match operands 1 2 ps with
    | some ([k], [a, b]) => some (.hash k a b)
    | _ => none
  else if name = "AEAD_SEAL".toList then
    match operands 1 5 ps with
    | some ([k], [a, b, c, d, e]) => some (.aeadSeal k a b c d e)
    | _ => none
  else if name = "AEAD_OPEN".toList then
    match operands 1 5 ps with
    | some ([k], [a, b, c, d, e]) => some (.aeadOpen k a b c d e)
    | _ => none
  else if name = "PKAT".toList then
    match operands 0 1 ps with
    | some ([], [a]) => some (.pkat a)
    | _ => none
  else none

/-- A line: `;` starts a comment, the mnemonic comes first, operands are separated by commas (R99). -/
def assembleLine (cs : List Char) : Option Line :=
  let body := trim (cs.takeWhile (· != ';'))
  let name := body.takeWhile (!isBlank ·)
  let rest := trim (body.dropWhile (!isBlank ·))
  let ps := if rest = [] then [] else (commaPieces rest).map trim
  if body = [] then some .empty
  else if name = ".din".toList then (hexBytes rest).map Line.din
  else if name = ".dout".toList then (hexBytes rest).map Line.dout
  else
    match allRows.find? (fun r => (mnemonicOf r).toList = name) with
    | some r => (assembleRow r ps).map fun i => .commands [i]
    | none =>
      match assemblePseudo name ps with
      | some q => if q.expand.all Instr.wf then some (.commands q.expand) else none
      | none => none

/-- The words a line puts on CMD (R99): for each command its header word, then its length words. -/
def Line.words : Line → List Word
  | .commands is => wordsOf is
  | .empty => []
  | .din _ => []
  | .dout _ => []

end Sys2Proof.Machine
end

