-- ==== Sys2Proof/Machine/Ports.lean ====
section
/-! DEFINITION. The host's side of the ports (spec/20_memory.md R61, R71, 00_scope.md R13) and the system of the
two agents at the command level. -/

namespace Sys2Proof.Machine

open Sys2Proof

/-- What the host can do (R13, R61). -/
inductive HostEvent where
  /-- Write one word to CMD. -/
  | writeCmd (w : Word)
  /-- Write one byte to DIN. -/
  | writeDin (b : Byte)
  /-- Remove the oldest byte of DOUT (R71(c)). -/
  | readDout
  /-- Read STATUS (R71(b)). -/
  | readStatus
  /-- Assert RST (70_reset_and_hazards.md R300). -/
  | reset
deriving DecidableEq, Repr

/-- The effect of a host event. A queue keeps what it is given while the core is faulted too (60_exceptions.md
R273). A read of an empty DOUT removes nothing (log entry 10). -/
def State.host (s : State) : HostEvent → State
  | .writeCmd w => { s with cmd := s.cmd ++ [w] }
  | .writeDin b => { s with din := s.din ++ [b] }
  | .readDout => { s with dout := s.dout.drop 1 }
  | .readStatus => s
  | .reset => s.resetEvent

/-- What a host event shows the host: a DOUT byte or the STATUS word. -/
def State.observe (s : State) : HostEvent → Option Word
  | .readDout => s.dout.head?.map fun b => b.setWidth 32
  | .readStatus => some s.status
  | .writeCmd _ => none
  | .writeDin _ => none
  | .reset => none

/-- The host writes a whole command stream and its data. -/
def State.load (s : State) (words : List Word) (data : Bytes) : State :=
  { s with cmd := s.cmd ++ words, din := s.din ++ data }

/-- One event of the system: the core takes a step, or the host acts. -/
inductive Event where
  | core
  | host (e : HostEvent)
deriving DecidableEq, Repr

/-- The system's reaction. A faulted core does not move (R273). -/
def State.react (s : State) : Event → State
  | .core =>
    match step s with
    | .next t => t
    | .fault _ => s
    | .refused _ => s
  | .host e => s.host e

/-- A run of the system: events in order, the first one first. -/
def State.reactAll (s : State) : List Event → State
  | [] => s
  | e :: es => (s.react e).reactAll es

end Sys2Proof.Machine
end

