-- ==== Sys2Proof/Machine/Streaming.lean ====
section
/-! DEFINITION. The core below the command level: chunk by chunk and round by round, with FIFOs of finite capacity
(spec/70_reset_and_hazards.md R300(e), R304 to R307, 10_state.md R38, R40). The command-level machine is the
reference (20_memory.md R66); this one refines it and holds the hidden state of R40. One `tick` is one internal
step. How ticks and host events interleave is left open (R308, 93_implementation_defined.md ID11, ID12). -/

namespace Sys2Proof.Machine

open Sys2Proof

/-- What the permutation engine works on: the slot of the command in progress, or P. -/
inductive Target where
  | slot
  | raw
deriving DecidableEq, Repr

/-- The permutation engine at work: the round index `r` of 10_state.md R38 is the next round to run. -/
structure Engine where
  target : Target
  round  : Nat
deriving DecidableEq, Repr

/-- A piece of work that remains of the command in progress (10_state.md R40(c)). -/
inductive Todo where
  /-- A new object (42_duplex_commands.md R200, 43_keyed_commands.md R231). -/
  | construct (m : Mode)
  /-- A copy of slot `src` (42_duplex_commands.md R203). -/
  | copyFrom (src : Nat)
  /-- `absorb_any` of `left` bytes from DIN followed by `tail`, at rate `rate` (R175). -/
  | absorb (left : Nat) (tail : Bytes) (rate : Nat) (f : Flag)
  /-- `squeeze_any` of `left` bytes (R176). -/
  | squeeze (left : Nat) (f : Flag)
  /-- `down(ε, Zero)` (R176). -/
  | pad
  /-- The first `n` state bytes go to DOUT (R174). -/
  | emit (n : Nat)
  /-- crypt of `left` bytes (43_keyed_commands.md R232). -/
  | crypt (left : Nat) (decrypting : Bool) (f : Flag)
  /-- The second half of a crypt turn, on a chunk of `n` bytes. -/
  | cryptChunk (n : Nat) (decrypting : Bool)
  /-- `up(f)` (R172). -/
  | up (f : Flag)
  /-- The first `n` state bytes into the scratch buffer T (10_state.md R40(b)). -/
  | saveScratch (n : Nat)
  /-- `down(T, Zero)` (43_keyed_commands.md R236). -/
  | feedScratch
  /-- 48 DIN bytes into P (40_permutation.md R144). -/
  | load
  /-- `count` permutations of P (40_permutation.md R145). -/
  | permuteRaw (count : Nat)
  /-- P to DOUT (40_permutation.md R146). -/
  | readRaw
deriving DecidableEq, Repr

/-- The hidden state of a command in progress (10_state.md R40). -/
structure InProgress where
  /-- The slot it works on. -/
  slot    : Nat
  /-- The work that remains, in order. -/
  todo    : List Todo
  /-- The permutation engine, `none` while it rests. -/
  engine  : Option Engine
  /-- The ratchet scratch buffer T. -/
  scratch : Bytes
  /-- Bytes produced that wait for space in DOUT (R305). -/
  out     : Bytes
deriving DecidableEq, Repr

/-- The core with its hidden state. In `core`, `din` and `dout` are the contents of the finite FIFOs.
`permutations` counts the permutations started; it is the model's own, for the cost measure of R309 (log
entry 13). -/
structure Stream where
  config       : Config
  core         : State
  busy         : Option InProgress
  permutations : Nat
deriving DecidableEq, Repr

/-- After reset no hidden state is held (R301). -/
def Stream.resetWith (config : Config) : Stream where
  config := config
  core := State.resetWith config.nctx
  busy := none
  permutations := 0

/-- IDLE (10_state.md R37): no command in progress and CMD empty. -/
def Stream.idle (σ : Stream) : Bool := σ.busy.isNone && σ.core.cmd.isEmpty

/-- STATUS, also during a wait (R307). -/
def Stream.status (σ : Stream) : Word := σ.core.statusWord σ.idle

/-- The context of slot `k`; a constructed Hash object stands in for a slot that does not exist, which no
command in progress names. -/
def State.contextAt (s : State) (k : Nat) : Context := s.slots.getD k Context.reset

/-- Bytes taken from slot `k`. -/
def State.peek (s : State) (k : Nat) (f : Context → Bytes) : Bytes :=
  match s.slots[k]? with
  | none => []
  | some c => f c

/-- The work of a command that has passed its checks. -/
def State.work (s : State) : Instr → List Todo
  | .initHash _ => [.construct .hash]
  | .initKeyed _ klen idlen clen =>
    [.construct .keyed, .absorb (klen + idlen) [BitVec.ofNat 8 idlen] 44 .absorbKey]
      ++ (if clen > 0 then [.absorb clen [] 1 .zero] else [])
  | .absorb k len => [.absorb len [] (s.contextAt k).mode.absorbRate .absorb]
  | .squeeze _ len => [.squeeze len .squeeze]
  | .encrypt _ len => [.crypt len false .crypt]
  | .decrypt _ len => [.crypt len true .crypt]
  | .squeezeKey _ len => [.squeeze len .squeezeKey]
  | .ratchet _ => [.up .ratchet, .saveScratch ratchetLength, .feedScratch]
  | .clone _ src => [.copyFrom src]
  | .pload => [.load]
  | .pperm count => [.permuteRaw count]
  | .pread => [.readRaw]

/-- The command in progress right after its decode. -/
def State.begin (s : State) (i : Instr) : InProgress where
  slot := i.slotFields.getD 0 0
  todo := s.work i
  engine := none
  scratch := []
  out := []

/-- The core has no command in progress: it decodes the next one, or takes a fault, or waits for words. -/
def Stream.fetch (σ : Stream) : Stream :=
  match σ.core.fault with
  | some _ => σ
  | none =>
    match decode σ.core.cmd with
    | .command i _ =>
      match σ.core.check i with
      | some code => { σ with core := σ.core.enterFault code i.words }
      | none => { σ with core := σ.core.takeCmd i.words, busy := some (σ.core.begin i) }
    | d => { σ with core := σ.core.incomplete d }

/-- Round `r` on a block (40_permutation.md R140). -/
def Block.roundAt (r : Nat) (s : Block) : Block := (Sys2Proof.Machine.roundAt r s.planes).bytes

/-- One round of the engine. After round 11 it rests, and a slot's PHASE becomes Up (R172). -/
def Stream.engineStep (σ : Stream) (b : InProgress) (e : Engine) : Stream :=
  let last := e.round ≥ 11
  { σ with
    core :=
      match e.target with
      | .raw => { σ.core with p := σ.core.p.roundAt e.round }
      | .slot => σ.core.onSlot b.slot fun c =>
          { c with s := c.s.roundAt e.round, phase := if last then .up else c.phase }
    busy := some { b with engine := if last then none else some { e with round := e.round + 1 } } }

/-- Start `up(f)` on the slot of the command in progress; `rest` is the work behind it. -/
def Stream.startUp (σ : Stream) (b : InProgress) (f : Flag) (rest : List Todo) : Stream :=
  { σ with
    core := σ.core.onSlot b.slot fun c => c.upFlag f
    busy := some { b with engine := some { target := .slot, round := 0 }, todo := rest }
    permutations := σ.permutations + 1 }

/-- The state `s` after a piece of work, and the command in progress `b` after it. -/
def Stream.advance (σ : Stream) (s : State) (b : InProgress) : Stream :=
  { σ with core := s, busy := some b }

/-- One piece of work `t`, with `ts` behind it. A piece that needs DIN bytes that have not arrived waits
(R304); a chunk is not absorbed before all its bytes have arrived (R306(a)). -/
def Stream.workStep (σ : Stream) (b : InProgress) (t : Todo) (ts : List Todo) : Stream :=
  let s := σ.core
  let k := b.slot
  match t with
  | .construct m => σ.advance (s.onSlot k fun _ => Context.construct m) { b with todo := ts }
  | .copyFrom src => σ.advance (s.onSlot k fun c => s.slots.getD src c) { b with todo := ts }
  | .absorb left tail rate f =>
    match (s.contextAt k).phase with
    | .down => σ.startUp b .zero (t :: ts)
    | .up =>
      let n := min left rate
      let m := min tail.length (rate - n)
      match s.dinRead n with
      | none => σ
      | some (x, s') =>
        σ.advance (s'.onSlot k fun c => c.down (x ++ tail.take m) f)
          { b with
            todo :=
              if left - n = 0 ∧ tail.length - m = 0 then ts
              else .absorb (left - n) (tail.drop m) rate .zero :: ts }
  | .squeeze left f =>
    let n := min left (s.contextAt k).mode.squeezeRate
    σ.startUp b f
      (.emit n :: if left - n = 0 then ts else .pad :: .squeeze (left - n) .zero :: ts)
  | .pad => σ.advance (s.onSlot k fun c => c.down [] .zero) { b with todo := ts }
  | .emit n => σ.advance s { b with todo := ts, out := s.peek k fun c => c.s.first n }
  | .crypt left decrypting f =>
    let n := min left cryptRate
    σ.startUp b f
      (.cryptChunk n decrypting :: if left - n = 0 then ts else .crypt (left - n) decrypting .zero :: ts)
  | .cryptChunk n decrypting =>
    match s.dinRead n with
    | none => σ
    | some (x, s') =>
      σ.advance (s'.onSlot k fun c => (c.cryptBlock x decrypting).2)
        { b with todo := ts, out := s'.peek k fun c => (c.cryptBlock x decrypting).1 }
  | .up f => σ.startUp b f ts
  | .saveScratch n => σ.advance s { b with todo := ts, scratch := s.peek k fun c => c.s.first n }
  | .feedScratch =>
    σ.advance (s.onSlot k fun c => c.down b.scratch .zero) { b with todo := ts, scratch := [] }
  | .load =>
    match s.dinRead 48 with
    | none => σ
    | some (x, s') => σ.advance { s' with p := Block.ofBytes x } { b with todo := ts }
  | .permuteRaw count =>
    match count with
    | 0 => σ.advance s { b with todo := ts }
    | n + 1 =>
      { σ with
        busy := some { b with engine := some { target := .raw, round := 0 }, todo := .permuteRaw n :: ts }
        permutations := σ.permutations + 1 }
  | .readRaw => σ.advance s { b with todo := ts, out := s.p.toList }

/-- One internal step of the core. Bytes that wait for DOUT come first, one at a time while DOUT has space (R305);
then the engine; then the remaining work; a command with none left is complete. A tick that changes
nothing is a wait. -/
def Stream.tick (σ : Stream) : Stream :=
  match σ.busy with
  | none => σ.fetch
  | some b =>
    match b.out with
    | y :: ys =>
      if σ.core.dout.length < σ.config.doutDepth then
        σ.advance (σ.core.doutWrite [y]) { b with out := ys }
      else σ
    | [] =>
      match b.engine with
      | some e => σ.engineStep b e
      | none =>
        match b.todo with
        | [] => { σ with busy := none }
        | t :: ts => σ.workStep b t ts

/-- `n` ticks. -/
def Stream.ticks (σ : Stream) : Nat → Stream
  | 0 => σ
  | n + 1 => σ.tick.ticks n

/-- The host's events (R61). A write to a full DIN does not happen: the host waits (R306). RST abandons the command
in progress and discards the hidden state (R300(e)). -/
def Stream.host (σ : Stream) : HostEvent → Stream
  | .writeCmd w => { σ with core := σ.core.host (.writeCmd w) }
  | .writeDin b =>
    if σ.core.din.length < σ.config.dinDepth then { σ with core := σ.core.host (.writeDin b) } else σ
  | .readDout => { σ with core := σ.core.host .readDout }
  | .readStatus => σ
  | .reset => { σ with core := σ.core.resetEvent, busy := none, permutations := 0 }

/-- The system of R13 at this level: the core ticks or the host acts. -/
def Stream.react (σ : Stream) : Event → Stream
  | .core => σ.tick
  | .host e => σ.host e

/-! What the command in progress will have done when it is complete, with the DIN bytes there are: the
command-level meaning of the remaining work. `none` where DIN is short. -/

/-- The meaning of one piece of work, on the scratch buffer and the state. -/
def Todo.finish (k : Nat) (t : Todo) (scratch : Bytes) (s : State) : Option (Bytes × State) :=
  match t with
  | .construct m => some (scratch, s.onSlot k fun _ => Context.construct m)
  | .copyFrom src => some (scratch, s.onSlot k fun c => s.slots.getD src c)
  | .absorb left tail rate f =>
    (s.dinRead left).map fun r => (scratch, r.2.onSlot k fun c => c.absorbAny (r.1 ++ tail) rate f)
  | .squeeze left f => some (scratch, s.onSlotOut k fun c => c.squeezeAny left f)
  | .pad => some (scratch, s.onSlot k fun c => c.down [] .zero)
  | .emit n => some (scratch, s.onSlotOut k fun c => (c.s.first n, c))
  | .crypt left decrypting f =>
    (s.dinRead left).map fun r =>
      (scratch, r.2.onSlotOut k fun c => c.cryptChunks decrypting (split r.1 cryptRate) f)
  | .cryptChunk n decrypting =>
    (s.dinRead n).map fun r => (scratch, r.2.onSlotOut k fun c => c.cryptBlock r.1 decrypting)
  | .up f => some (scratch, s.onSlot k fun c => c.up f)
  | .saveScratch n => some (s.peek k fun c => c.s.first n, s)
  | .feedScratch => some ([], s.onSlot k fun c => c.down scratch .zero)
  | .load => (s.dinRead 48).map fun r => (scratch, { r.2 with p := Block.ofBytes r.1 })
  | .permuteRaw count => some (scratch, { s with p := permuteTimes count s.p })
  | .readRaw => some (scratch, s.doutWrite s.p.toList)

/-- The meaning of a list of work, in order. -/
def finishAll (k : Nat) : List Todo → Bytes → State → Option State
  | [], _, s => some s
  | t :: ts, scratch, s =>
    match t.finish k scratch s with
    | none => none
    | some (scratch', s') => finishAll k ts scratch' s'

/-- The rounds that remain on a block. -/
def Block.finishRounds (r : Nat) (s : Block) : Block := (roundsFrom r (12 - r) s.planes).bytes

/-- The engine runs its remaining rounds. -/
def State.finishEngine (s : State) (k : Nat) : Option Engine → State
  | none => s
  | some e =>
    match e.target with
    | .raw => { s with p := s.p.finishRounds e.round }
    | .slot => s.onSlot k fun c => { c with s := c.s.finishRounds e.round, phase := .up }

/-- The command-level state in which the command in progress ends. -/
def Stream.finish (σ : Stream) : Option State :=
  match σ.busy with
  | none => some σ.core
  | some b => finishAll b.slot b.todo b.scratch ((σ.core.doutWrite b.out).finishEngine b.slot b.engine)

/-- The bytes `xs` will have been added to DIN. -/
def Stream.withDin (σ : Stream) (xs : Bytes) : Stream :=
  { σ with core := { σ.core with din := σ.core.din ++ xs } }

/-! The cost measure. -/

/-- The permutations a command runs when it does not fault (R309). -/
def State.permutationCount (s : State) : Instr → Nat
  | .initHash _ => 0
  | .initKeyed _ klen idlen clen => numChunks (klen + idlen + 1) 44 - 1 + clen
  | .absorb k len =>
    (if (s.contextAt k).phase = .down then 1 else 0)
      + numChunks len (s.contextAt k).mode.absorbRate - 1
  | .squeeze k len => numChunks len (s.contextAt k).mode.squeezeRate
  | .encrypt _ len => numChunks len cryptRate
  | .decrypt _ len => numChunks len cryptRate
  | .squeezeKey k len => numChunks len (s.contextAt k).mode.squeezeRate
  | .ratchet _ => 1
  | .clone _ _ => 0
  | .pload => 0
  | .pperm count => count
  | .pread => 0

/-! The view without data, for R311: what is left of a state when every key, data and state byte is
forgotten. -/

/-- A string of the same length without its bytes. -/
def blankBytes (x : Bytes) : Bytes := List.replicate x.length 0

/-- A state without its data bytes. -/
def State.blank (s : State) : State where
  slots := s.slots.map fun c => { c with s := Block.zero }
  p := Block.zero
  fault := s.fault
  cmd := s.cmd
  din := blankBytes s.din
  dout := blankBytes s.dout

/-- A core with its hidden state, without the data bytes. -/
def Stream.blank (σ : Stream) : Stream where
  config := σ.config
  core := σ.core.blank
  busy := σ.busy.map fun b => { b with scratch := blankBytes b.scratch, out := blankBytes b.out }
  permutations := σ.permutations

/-! The invariant of the finer machine. -/

/-- A piece of work asks for chunks that fit the smallest DIN (48 bytes) and a positive rate. -/
def Todo.wf : Todo → Bool
  | .absorb _ _ rate _ => 1 ≤ rate && rate ≤ 44
  | .cryptChunk n _ => n ≤ cryptRate
  | .construct _ | .copyFrom _ | .squeeze _ _ | .pad | .emit _ | .crypt _ _ _ | .up _ | .saveScratch _
  | .feedScratch | .load | .permuteRaw _ | .readRaw => true

/-- The round index runs from 0 to 11, and all remaining work is well formed. -/
def InProgress.wf (b : InProgress) : Bool :=
  b.todo.all Todo.wf && b.engine.all (·.round < 12)

/-- The invariant: a command in progress is well formed. -/
def Stream.wf (σ : Stream) : Bool := σ.busy.all InProgress.wf

end Sys2Proof.Machine
end

