-- ==== Sys2Proof/Safety.lean ====
section
/-! DEFINITION. What counts as a safe run, in the terms the statements use. -/

namespace Sys2Proof.Machine

open Sys2Proof

/-- The number of slots is a legal NCTX (spec/00_scope.md R7(a)). -/
abbrev State.Legal (s : State) : Prop := 2 ≤ s.slots.length ∧ s.slots.length ≤ 16

/-- A run ends well where STATUS shows FAULT = 0 and IDLE = 1: every command written has completed without a fault
(20_memory.md R67, 70_reset_and_hazards.md R307). The faulted state and a stalled one are no success
(60_exceptions.md R273, 70_reset_and_hazards.md R304). -/
abbrev State.EndsWell (s : State) : Prop := s.fault = none ∧ s.cmd = []

/-- `k` steps of the core from `s` end well. -/
abbrev RunsWell (k : Nat) (s : State) : Prop :=
  ∃ t : State, Host.Core.run Sys2Proof.core k s = .next t ∧ t.EndsWell

/-- A command passes its checks, and DIN holds the bytes it reads (70_reset_and_hazards.md R304): it executes. -/
abbrev State.Ready (s : State) (i : Instr) : Prop := s.check i = none ∧ dinCount i ≤ s.din.length

/-- What causes each fault (60_exceptions.md R271). ILLEGAL is a header that is no command, so no command
causes it. -/
abbrev FaultCode.CausedBy (s : State) : Instr → FaultCode → Prop
  | _, .illegal => False
  | i, .badCtx => ∃ k ∈ i.slotFields, s.slots.length ≤ k
  | i, .mode => keyedOnly i = true ∧ ∃ c, s.slots[i.slotFields.getD 0 0]? = some c ∧ c.mode = .hash
  | .initKeyed _ klen _ _, .keyEmpty => klen = 0
  | .initKeyed _ klen idlen _, .keyTooLong => klen + idlen > 44
  | .squeeze _ len, .emptySqueeze => len = 0
  | .squeezeKey _ len, .emptySqueeze => len = 0
  | _, .keyEmpty => False
  | _, .keyTooLong => False
  | _, .emptySqueeze => False

/-- The order of the checks (60_exceptions.md R274). -/
def checkOrder : List FaultCode := [.illegal, .badCtx, .mode, .keyEmpty, .keyTooLong, .emptySqueeze]

/-- The slot a command writes: CTX, which is CLONE's destination; none for the raw commands. -/
def writtenSlot : Instr → Option Nat
  | .initHash k => some k
  | .initKeyed k _ _ _ => some k
  | .absorb k _ => some k
  | .squeeze k _ => some k
  | .encrypt k _ => some k
  | .decrypt k _ => some k
  | .squeezeKey k _ => some k
  | .ratchet k => some k
  | .clone d _ => some d
  | .pload => none
  | .pperm _ => none
  | .pread => none

/-- The objects whose history begins with a key absorption (43_keyed_commands.md R230, 92_eei_decisions.md
D32): what INIT_KEYED constructs from a legal key, and what the commands that keep the object make of it. -/
inductive KeyDerived : Context → Prop
  | init (x : Bytes) (klen idlen clen : Nat) (hk : klen ≠ 0) (hl : klen + idlen ≤ 44)
      (hx : x.length = klen + idlen + clen) : KeyDerived (Context.keyedFrom x klen idlen clen)
  | absorb (c : Context) (x : Bytes) : KeyDerived c → KeyDerived (c.absorbAny x c.mode.absorbRate .absorb)
  | squeeze (c : Context) (n : Nat) (f : Flag) : KeyDerived c → KeyDerived (c.squeezeAny n f).2
  | crypt (c : Context) (x : Bytes) (d : Bool) : KeyDerived c → KeyDerived (c.crypt x d).2
  | ratchet (c : Context) : KeyDerived c → KeyDerived c.ratchet

/-- Every Keyed object of a state began with a key absorption. -/
abbrev State.KeyedByKey (s : State) : Prop := ∀ c ∈ s.slots, c.mode = .keyed → KeyDerived c

/-- A state the system of core and host can reach from reset with `n` slots. -/
abbrev Reachable (n : Nat) (s : State) : Prop := ∃ es, (State.resetWith n).reactAll es = s

/-- The core can do nothing and the host that insists on writing DIN cannot either
(70_reset_and_hazards.md R306, 93_implementation_defined.md ID10). -/
abbrev Stream.Deadlocked (σ : Stream) : Prop :=
  σ.tick = σ ∧ ∀ b, σ.host (.writeDin b) = σ

/-- The invariant of the finer machine: the command in progress is well formed, and there is none while the core is
faulted (60_exceptions.md R273, 70_reset_and_hazards.md R307). -/
abbrev Stream.Inv (σ : Stream) : Prop := σ.wf = true ∧ (σ.busy ≠ none → σ.core.fault = none)

end Sys2Proof.Machine
end

