-- ==== Sys2Proof/Certificates/Slice0/Obligations.lean ====
section
/-! DEFINITION. The statements about the model. Each docstring names the rules of spec/ it rests on. -/

open Sys2Proof Sys2Proof.Machine

/-! Encoding. -/

/-- 30_encoding.md R91, R93, R96 on the words of 95_test_vectors.md V-E1 to V-E19, among them a word of every row. -/
def Obligations.VectorWordsDecodeAsListed : Prop :=
  decode [0x00000001] = .command (.initHash 0) [] ∧
  decode [0x00000102, 0x00000010, 0x00000004, 0x00000002] = .command (.initKeyed 1 16 4 2) [] ∧
  decode [0x00000303, 0x00000021] = .command (.absorb 3 33) [] ∧
  decode [0x00000f04, 0x00000020] = .command (.squeeze 15 32) [] ∧
  decode [0x00000005, 0x00000005] = .command (.encrypt 0 5) [] ∧
  decode [0x00000206, 0x00000000] = .command (.decrypt 2 0) [] ∧
  decode [0x00000007, 0x00000019] = .command (.squeezeKey 0 25) [] ∧
  decode [0x00000108] = .command (.ratchet 1) [] ∧
  decode [0x00000109] = .command (.clone 1 0) [] ∧
  decode [0x00002309] = .command (.clone 3 2) [] ∧
  decode [0x00000010] = .command .pload [] ∧
  decode [0x00000011, 0x00000180] = .command (.pperm 384) [] ∧
  decode [0x00000012] = .command .pread [] ∧
  decode [0x00000000] = .illegal ∧ decode [0x0000000a] = .illegal ∧ decode [0x0000000f] = .illegal ∧
  decode [0x00000013] = .illegal ∧ decode [0x000000ff] = .illegal ∧ decode [0x00010004] = .illegal ∧
  decode [0x00001001] = .illegal ∧ decode [0x00000110] = .illegal ∧ decode [0x80000009] = .illegal

/-- 30_encoding.md R90 to R93: every well-formed command's words, whatever follows them, decode to the command with every
operand, and leave what follows. -/
def Obligations.DecodeInvertsEncode : Prop :=
  ∀ (i : Instr) (rest : List Word), i.wf = true → decode (encode i ++ rest) = .command i rest

/-- 30_encoding.md R96, R97: the words that decode to a command are exactly its encoding, so no two word sequences are one
command; and a decoded command is well formed. -/
def Obligations.EncodeInvertsDecode : Prop :=
  ∀ (ws rest : List Word) (i : Instr), decode ws = .command i rest → i.wf = true ∧ ws = encode i ++ rest

/-- opcode_table.json, 30_encoding.md R94 to R96: a header decodes to a row exactly when its fixed bits are the row's, and
CTX and CTX2 are its bits 11:8 and 15:12. -/
def Obligations.HeaderDecodesByTableRow : Prop :=
  ∀ (h : Word) (row : Opcode) (c c2 : Nat),
    decodeHeader h = some { row := row, ctx := c, ctx2 := c2 } ↔
      h &&& row.tableMask = row.tableMatch ∧ c = (h >>> 8).toNat % 16 ∧ c2 = (h >>> 12).toNat % 16

/-- 30_encoding.md R95 with 60_exceptions.md R272: an illegal header (an OPC outside the map, RSV ≠ 0, or a field that must be 0
and is not) raises ILLEGAL, consumes the header word alone, and changes nothing else. -/
def Obligations.IllegalHeaderFaults : Prop :=
  ∀ (s : State) (h : Word) (rest : List Word), s.fault = none → s.cmd = h :: rest →
    (h.toNat / 2 ^ 16 ≠ 0 ∨
      h.toNat % 2 ^ 8 ∉ [1, 2, 3, 4, 5, 6, 7, 8, 9, 16, 17, 18] ∨
      (h.toNat % 2 ^ 8 ∈ [1, 2, 3, 4, 5, 6, 7, 8] ∧ h.toNat / 2 ^ 12 % 16 ≠ 0) ∨
      (h.toNat % 2 ^ 8 ∈ [16, 17, 18] ∧ (h.toNat / 2 ^ 8 % 16 ≠ 0 ∨ h.toNat / 2 ^ 12 % 16 ≠ 0))) →
    step s = .next { s with cmd := rest, fault := some .illegal }

/-- 20_memory.md R66, 30_encoding.md R97: where FAULT = 0 and the words at the head of CMD decode to a command, a step is `exec` of that
command at that state, and the words behind the command are those behind its `i.words` words. -/
def Obligations.StepRunsDecodedCommand : Prop :=
  ∀ (s : State) (i : Instr) (rest : List Word), s.fault = none → decode s.cmd = .command i rest →
    step s = exec i s ∧ s.cmd.drop i.words = rest

/-- 20_memory.md R66, R67, 70_reset_and_hazards.md R303: from a command stream the core takes command after command: where the one at the
head is ready, a step is its `exec`, and the stream's next command then stands at the head. -/
def Obligations.StreamsRunInOrder : Prop :=
  ∀ (i : Instr) (is : List Instr) (s t : State), i.wf = true → s.fault = none → s.cmd = wordsOf (i :: is) →
    s.Ready i → exec i s = .next t → step s = .next t ∧ t.cmd = wordsOf is ∧ t.fault = none

/-- 20_memory.md R65: on a byte-wide bus a CMD word is four bytes, bits 7:0 first. -/
def Obligations.CmdBytesAreLittleEndian : Prop :=
  ∀ (w : Word) (bs : Bytes),
    cmdWordsOfBytes (w.extractLsb' 0 8 :: w.extractLsb' 8 8 :: w.extractLsb' 16 8 :: w.extractLsb' 24 8 :: bs)
      = w :: cmdWordsOfBytes bs

/-! The permutation. -/

/-- 10_state.md R32: the word view reads a state little-endian, plane by plane and lane by lane; the inverse view writes byte `t` of a
lane from its bits `8t+7:8t`; the two are inverse to each other. -/
def Obligations.WordViewIsLossless : Prop :=
  (∀ (s : Block) (i : Fin 4),
    s.planes.a.get i = le32 s[4 * i.val] s[4 * i.val + 1] s[4 * i.val + 2] s[4 * i.val + 3] ∧
    s.planes.b.get i = le32 s[4 * (4 + i.val)] s[4 * (4 + i.val) + 1] s[4 * (4 + i.val) + 2] s[4 * (4 + i.val) + 3] ∧
    s.planes.c.get i = le32 s[4 * (8 + i.val)] s[4 * (8 + i.val) + 1] s[4 * (8 + i.val) + 2] s[4 * (8 + i.val) + 3]) ∧
  (∀ (w : Planes) (i t : Fin 4),
    w.bytes[4 * i.val + t.val] = (w.a.get i).extractLsb' (8 * t.val) 8 ∧
    w.bytes[4 * (4 + i.val) + t.val] = (w.b.get i).extractLsb' (8 * t.val) 8 ∧
    w.bytes[4 * (8 + i.val) + t.val] = (w.c.get i).extractLsb' (8 * t.val) 8) ∧
  (∀ s : Block, s.planes.bytes = s) ∧ ∀ w : Planes, w.bytes.planes = w

/-- 40_permutation.md R138 with R137: on every input, the byte table and the word form of rho-east on plane C are equal, and the
round uses that form; the rule's example is output bytes 0 to 3. -/
def Obligations.RhoEastByteAndWordFormsAgree : Prop :=
  ∀ w : Planes,
    rhoEastCBytes w.bytes = ({ w with c := Plane.ofFn fun i => rotl (w.c.get (i + 2)) 8 } : Planes).bytes ∧
    (∀ i, (rhoEast w).c.get i = rotl (w.c.get (i + 2)) 8) ∧
    le32 w.bytes[32 + 11] w.bytes[32 + 8] w.bytes[32 + 9] w.bytes[32 + 10] = rotl (w.c.get 2) 8

/-- 40_permutation.md R142: `permute` is a bijection on the 384-bit state. -/
def Obligations.PermuteIsBijection : Prop := Function.Bijective permute

/-- 40_permutation.md R139 and R141, their examples: `Round(0^12, 0x58)`, and the bytes of `permute(0^48)`. -/
def Obligations.PermuteOfZeroIsTheListedState : Prop :=
  round 0x58 ⟨⟨0, 0, 0, 0⟩, ⟨0, 0, 0, 0⟩, ⟨0, 0, 0, 0⟩⟩
    = ⟨⟨0x58, 0, 0, 0⟩, ⟨0xB0, 0, 0, 0⟩, ⟨0, 0, 0, 0⟩⟩ ∧
  (permute Block.zero).toList =
    [0x8d, 0xd8, 0xd5, 0x89, 0xbf, 0xfc, 0x63, 0xa9, 0x19, 0x2d, 0x23, 0x1b,
     0x14, 0xa0, 0xa5, 0xff, 0x06, 0x81, 0xb1, 0x36, 0xfe, 0xc1, 0xc7, 0xaf,
     0xbe, 0x7c, 0xe5, 0xae, 0xbd, 0x40, 0x75, 0xa7, 0x70, 0xe8, 0x86, 0x2e,
     0xc9, 0xb7, 0xf5, 0xfe, 0xf2, 0xad, 0x4f, 0x8b, 0x62, 0x40, 0x4f, 0x5e]

/-! The duplex primitives. -/

/-- 41_duplex_primitives.md R171 with R178: `down` of a block of at most the absorb rate XORs the block from byte 0, 0x01 at the index
`|X|`, and the flag (its low bit in Hash mode) into byte 47, sets PHASE to Down and leaves MODE. -/
def Obligations.DownXorsBlockPadAndFlag : Prop :=
  ∀ (c : Context) (x : Bytes) (f : Flag), x.length ≤ c.mode.absorbRate →
    (c.down x f).phase = .down ∧ (c.down x f).mode = c.mode ∧
    ∀ (i : Nat) (_ : i < 48), (c.down x f).s[i] =
      if h : i < x.length then c.s[i] ^^^ x[i]
      else if i = x.length then c.s[i] ^^^ 0x01
      else if i = 47 then c.s[i] ^^^ (if c.mode = .hash then f.byte &&& 0x01 else f.byte)
      else c.s[i]

/-- 41_duplex_primitives.md R172: `up` in Hash mode is the permutation; in Keyed mode the flag is XORed into byte 47 first. PHASE is Up
after it, MODE stays, and PHASE is not read. -/
def Obligations.UpFlagsThenPermutes : Prop :=
  ∀ (c : Context) (f : Flag),
    (c.up f).phase = .up ∧ (c.up f).mode = c.mode ∧
    (c.mode = .hash → (c.up f).s = permute c.s) ∧
    (c.mode = .keyed → (c.up f).s = permute (c.s.set 47 (c.s[47] ^^^ f.byte))) ∧
    ∀ ph, ({ c with phase := ph } : Context).up f = c.up f

/-- 41_duplex_primitives.md R173: the chunks of a string at rate r. -/
def Obligations.SplitCutsIntoChunks : Prop :=
  (∀ r : Nat, 1 ≤ r → split [] r = [[]]) ∧
  (∀ (x : Bytes) (r : Nat), 1 ≤ r → x ≠ [] →
    (split x r).length = max 1 ((x.length + r - 1) / r) ∧
    (split x r).flatten = x ∧
    (∀ k, k + 1 < (split x r).length → ((split x r).getD k []).length = r) ∧
    ((split x r).getLastD []).length = x.length - r * ((x.length + r - 1) / r - 1) ∧
    1 ≤ ((split x r).getLastD []).length ∧ ((split x r).getLastD []).length ≤ r ∧
    ∀ k, k < (split x r).length → (split x r).getD k [] = (x.drop (k * r)).take r) ∧
  ∀ (c : Context) (x : Bytes) (d : Bool), c.crypt x d = c.cryptChunks d (split x 24) .crypt

/-- 41_duplex_primitives.md R179: in Hash mode the only flag that reaches the state is the low bit of Absorb, in `down`. -/
def Obligations.HashModeIgnoresEveryFlagButAbsorb : Prop :=
  ∀ (c : Context), c.mode = .hash →
    (∀ f g, c.up f = c.up g) ∧
    (∀ x f, f ≠ .absorb → c.down x f = c.down x .zero) ∧
    (∀ x, x.length ≤ 16 → (c.down x .absorb).s = (c.down x .zero).s.set 47 ((c.down x .zero).s[47] ^^^ 0x01)) ∧
    ∀ n f g, c.squeezeAny n f = c.squeezeAny n g

/-- 41_duplex_primitives.md R176: a shorter squeeze from the same object gives the first bytes of a longer one. -/
def Obligations.ShorterSqueezeIsPrefix : Prop :=
  ∀ (c : Context) (f : Flag) (n m : Nat), n ≤ m → (c.squeezeAny n f).1 = (c.squeezeAny m f).1.take n

/-- 43_keyed_commands.md R232: after a crypt turn the first state bytes are the plaintext of the chunk, in either direction. -/
def Obligations.CryptTurnLeavesPlaintext : Prop :=
  ∀ (c : Context) (x : Bytes) (i : Nat) (_ : i < x.length) (_ : x.length ≤ 24),
    (c.cryptBlock x false).2.s[i]'(by omega) = x[i] ∧
    (c.cryptBlock x true).2.s[i]'(by omega) = c.s[i]'(by omega) ^^^ x[i] ∧
    (c.cryptBlock x true).1[i]? = some (c.s[i]'(by omega) ^^^ x[i])

/-- 43_keyed_commands.md R236: RATCHET on a Keyed object zeroes bytes 0 to 15, flips bit 0 of byte 16, keeps the other bytes of the
permuted state, and leaves PHASE Down and MODE Keyed. -/
def Obligations.RatchetErasesTheRate : Prop :=
  ∀ (c : Context), c.mode = .keyed →
    c.ratchet.phase = .down ∧ c.ratchet.mode = .keyed ∧
    ∀ (i : Nat) (_ : i < 48), c.ratchet.s[i] =
      if i < 16 then (0x00 : Byte)
      else if i = 16 then (permute (c.s.set 47 (c.s[47] ^^^ 0x10)))[i] ^^^ 0x01
      else (permute (c.s.set 47 (c.s[47] ^^^ 0x10)))[i]

/-! The commands: where each completes, and with what result. -/

/-- 42_duplex_commands.md R200. -/
def Obligations.InitHashConstructsHashObject : Prop :=
  ∀ (s : State) (k : Nat), k < s.slots.length →
    exec (.initHash k) s = .next
      { s with slots := s.slots.set k { s := Vector.replicate 48 0, phase := .up, mode := .hash }, cmd := s.cmd.drop 1 }

/-- 43_keyed_commands.md R231: the mode is Keyed before the key material, key ∥ id ∥ the id length in one byte, is absorbed at rate
44 with flag AbsorbKey; a non-empty counter follows at rate 1 with flag Zero. -/
def Obligations.InitKeyedAbsorbsKeyMaterial : Prop :=
  ∀ (s : State) (k klen idlen clen : Nat) (key id counter rest : Bytes),
    k < s.slots.length → klen ≠ 0 → klen + idlen ≤ 44 → s.din = key ++ id ++ counter ++ rest →
    key.length = klen → id.length = idlen → counter.length = clen →
    ∃ c, exec (.initKeyed k klen idlen clen) s = .next
        { s with slots := s.slots.set k c, din := rest, cmd := s.cmd.drop 4 } ∧
      c = (let c0 : Context := { s := Vector.replicate 48 0, phase := .up, mode := .keyed }
           let c1 := c0.absorbAny (key ++ id ++ [BitVec.ofNat 8 idlen]) 44 .absorbKey
           if clen = 0 then c1 else c1.absorbAny counter 1 .zero) ∧
      c.phase = .down ∧ c.mode = .keyed

/-- 42_duplex_commands.md R201, with the rates of 10_state.md R35. -/
def Obligations.AbsorbTakesDinAtTheModesRate : Prop :=
  ∀ (s : State) (k len : Nat) (c : Context) (x rest : Bytes),
    s.slots[k]? = some c → s.din = x ++ rest → x.length = len →
    exec (.absorb k len) s = .next
      { s with
        slots := s.slots.set k (c.absorbAny x (if c.mode = .hash then 16 else 44) .absorb)
        din := rest, cmd := s.cmd.drop 2 }

/-- 42_duplex_commands.md R202. -/
def Obligations.SqueezeWritesOutput : Prop :=
  ∀ (s : State) (k len : Nat) (c : Context), s.slots[k]? = some c → 1 ≤ len →
    exec (.squeeze k len) s = .next
      { s with
        slots := s.slots.set k (c.squeezeAny len .squeeze).2
        dout := s.dout ++ (c.squeezeAny len .squeeze).1, cmd := s.cmd.drop 2 }

/-- 43_keyed_commands.md R233, on every Keyed slot, LEN = 0 included. -/
def Obligations.EncryptStreamsCiphertext : Prop :=
  ∀ (s : State) (k len : Nat) (c : Context) (x rest : Bytes),
    s.slots[k]? = some c → c.mode = .keyed → s.din = x ++ rest → x.length = len →
    exec (.encrypt k len) s = .next
      { s with
        slots := s.slots.set k (c.crypt x false).2
        din := rest, dout := s.dout ++ (c.crypt x false).1, cmd := s.cmd.drop 2 }

/-- 43_keyed_commands.md R234, on every Keyed slot, LEN = 0 included. -/
def Obligations.DecryptStreamsPlaintext : Prop :=
  ∀ (s : State) (k len : Nat) (c : Context) (x rest : Bytes),
    s.slots[k]? = some c → c.mode = .keyed → s.din = x ++ rest → x.length = len →
    exec (.decrypt k len) s = .next
      { s with
        slots := s.slots.set k (c.crypt x true).2
        din := rest, dout := s.dout ++ (c.crypt x true).1, cmd := s.cmd.drop 2 }

/-- 43_keyed_commands.md R235. -/
def Obligations.SqueezeKeyWritesOutput : Prop :=
  ∀ (s : State) (k len : Nat) (c : Context), s.slots[k]? = some c → c.mode = .keyed → 1 ≤ len →
    exec (.squeezeKey k len) s = .next
      { s with
        slots := s.slots.set k (c.squeezeAny len .squeezeKey).2
        dout := s.dout ++ (c.squeezeAny len .squeezeKey).1, cmd := s.cmd.drop 2 }

/-- 43_keyed_commands.md R236: the 16 bytes squeezed with flag Ratchet are absorbed again at rate 44 with flag Zero; no byte moves
through DIN or DOUT. -/
def Obligations.RatchetFeedsBackSixteenBytes : Prop :=
  ∀ (s : State) (k : Nat) (c : Context), s.slots[k]? = some c → c.mode = .keyed →
    exec (.ratchet k) s = .next
      { s with
        slots := s.slots.set k
          ((c.squeezeAny 16 .ratchet).2.absorbAny (c.squeezeAny 16 .ratchet).1 44 .zero)
        cmd := s.cmd.drop 1 }

/-- 42_duplex_commands.md R203, dst = src included. -/
def Obligations.CloneCopiesTheWholeObject : Prop :=
  ∀ (s : State) (d r : Nat) (c : Context), d < s.slots.length → s.slots[r]? = some c →
    exec (.clone d r) s = .next { s with slots := s.slots.set d c, cmd := s.cmd.drop 1 }

/-- 40_permutation.md R144. -/
def Obligations.PloadTakesFortyEightBytes : Prop :=
  ∀ (s : State) (p : Block) (rest : Bytes), s.din = p.toList ++ rest →
    exec .pload s = .next { s with p := p, din := rest, cmd := s.cmd.drop 1 }

/-- 40_permutation.md R145, COUNT = 0 included. -/
def Obligations.PpermIteratesThePermutation : Prop :=
  ∀ (s : State) (count : Nat),
    exec (.pperm count) s = .next { s with p := permute^[count] s.p, cmd := s.cmd.drop 2 }

/-- 40_permutation.md R146. -/
def Obligations.PreadWritesTheRawRegister : Prop :=
  ∀ s : State, exec .pread s = .next { s with dout := s.dout ++ s.p.toList, cmd := s.cmd.drop 1 }

/-- 43_keyed_commands.md R234: for any slot state and any string, ENCRYPT of it and DECRYPT of the output from the same slot state
yield the same slot state, and DECRYPT outputs the string. -/
def Obligations.DecryptUndoesEncrypt : Prop :=
  ∀ (s t : State) (k len : Nat) (c : Context) (x rest y rest' : Bytes),
    s.slots[k]? = some c → c.mode = .keyed → x.length = len →
    s.din = x ++ rest → t.slots[k]? = some c → t.din = y ++ rest' → y.length = len →
    ∀ s', exec (.encrypt k len) s = .next s' → s'.dout = s.dout ++ y →
      ∃ t', exec (.decrypt k len) t = .next t' ∧ t'.dout = t.dout ++ x ∧ t'.slots[k]? = s'.slots[k]?

/-! What commands leave alone. -/

/-- 10_state.md R30, R36, 20_memory.md R68, 42_duplex_commands.md R203: when `exec` gives a next state, every slot but the one the
command writes is unchanged, the raw commands (PLOAD, PPERM, PREAD) leave every slot, and P changes only by PLOAD and PPERM. -/
def Obligations.CommandsTouchOnlyTheirSlot : Prop :=
  ∀ (i : Instr) (s t : State), exec i s = .next t →
    t.slots.length = s.slots.length ∧
    (∀ j, writtenSlot i ≠ some j → t.slots[j]? = s.slots[j]?) ∧
    ((∀ n, i ≠ .pperm n) → i ≠ .pload → t.p = s.p) ∧
    (∃ n, t.cmd = s.cmd.drop n ∧ n ≤ i.words) ∧
    (s.check i = none → t.fault = s.fault)

/-- 30_encoding.md R98: the DIN bytes a command that executes reads and the DOUT bytes it writes; a command that faults reads and
writes none. -/
def Obligations.CommandsMoveTheListedByteCounts : Prop :=
  (∀ (i : Instr) (s t : State), s.Ready i → exec i s = .next t →
    t.din = s.din.drop (dinCount i) ∧ (∃ y : Bytes, t.dout = s.dout ++ y ∧ y.length = doutCount i) ∧
    t.cmd = s.cmd.drop i.words) ∧
  (∀ (i : Instr) (s t : State), s.check i ≠ none → exec i s = .next t → t.din = s.din ∧ t.dout = s.dout) ∧
  (∀ k, dinCount (.initHash k) = 0 ∧ doutCount (.initHash k) = 0) ∧
  (∀ k a b c, dinCount (.initKeyed k a b c) = a + b + c ∧ doutCount (.initKeyed k a b c) = 0) ∧
  (∀ k n, dinCount (.absorb k n) = n ∧ doutCount (.absorb k n) = 0) ∧
  (∀ k n, dinCount (.squeeze k n) = 0 ∧ doutCount (.squeeze k n) = n) ∧
  (∀ k n, dinCount (.encrypt k n) = n ∧ doutCount (.encrypt k n) = n) ∧
  (∀ k n, dinCount (.decrypt k n) = n ∧ doutCount (.decrypt k n) = n) ∧
  (∀ k n, dinCount (.squeezeKey k n) = 0 ∧ doutCount (.squeezeKey k n) = n) ∧
  (∀ k, dinCount (.ratchet k) = 0 ∧ doutCount (.ratchet k) = 0) ∧
  (∀ d r, dinCount (.clone d r) = 0 ∧ doutCount (.clone d r) = 0) ∧
  (dinCount .pload = 48 ∧ doutCount .pload = 0) ∧
  (∀ n, dinCount (.pperm n) = 0 ∧ doutCount (.pperm n) = 0) ∧
  (dinCount .pread = 0 ∧ doutCount .pread = 48)

/-- The *Writes* lines of 42_duplex_commands.md R200 to R202 and 43_keyed_commands.md R231 to R236: the PHASE in which an executed
command leaves its slot. -/
def Obligations.PhaseAfterEachCommand : Prop :=
  ∀ (i : Instr) (s t : State) (k : Nat) (c : Context), s.Ready i → exec i s = .next t → writtenSlot i = some k →
    t.slots[k]? = some c →
    match i with
    | .initHash _ => c.phase = .up
    | .initKeyed _ _ _ _ => c.phase = .down
    | .absorb _ _ => c.phase = .down
    | .squeeze _ _ => c.phase = .up
    | .encrypt _ _ => c.phase = .down
    | .decrypt _ _ => c.phase = .down
    | .squeezeKey _ _ => c.phase = .up
    | .ratchet _ => c.phase = .down
    | .clone _ r => ∃ c', s.slots[r]? = some c' ∧ c.phase = c'.phase
    | .pload => True
    | .pperm _ => True
    | .pread => True

/-! Faults, waits, STATUS, reset. -/

/-- 60_exceptions.md R272: a command whose check fails changes no slot, not P, not DIN, not DOUT; it sets FAULT and FCODE, and it has
consumed its header word, and its length words too unless the fault is BAD_CTX. -/
def Obligations.FaultingCommandChangesNothingElse : Prop :=
  ∀ (i : Instr) (s : State) (c : FaultCode), s.fault = none → s.check i = some c →
    exec i s = .next { s with fault := some c, cmd := s.cmd.drop (if c = .badCtx then 1 else i.words) }

/-- 60_exceptions.md R271, R274: the fault a command raises is the first in the order of R274 whose cause holds, and a command with no
cause raises none. -/
def Obligations.FirstFailingCheckIsReported : Prop :=
  ∀ (i : Instr) (s : State),
    (∀ c, s.check i = some c ↔
      c.CausedBy s i ∧ ∀ d ∈ checkOrder.take (checkOrder.idxOf c), ¬ d.CausedBy s i) ∧
    (s.check i = none ↔ ∀ c : FaultCode, ¬ c.CausedBy s i)

/-- 30_encoding.md R97, 60_exceptions.md R272(c): BAD_CTX is raised from the header word alone, whether or not the length words have
arrived, and leaves them in CMD. -/
def Obligations.BadCtxFaultsFromTheHeaderAlone : Prop :=
  ∀ (s : State) (h : Word) (rest : List Word) (hd : Header), s.fault = none → s.cmd = h :: rest →
    decodeHeader h = some hd → (∃ k ∈ hd.slotFields, s.slots.length ≤ k) →
    step s = .next { s with cmd := rest, fault := some .badCtx }

/-- 70_reset_and_hazards.md R304, 60_exceptions.md R281: an idle core and a command short of length words or DIN bytes leave the state as it
is, and while words wait in CMD, IDLE reads 0. A wait as a step to the same state is log entry 2. -/
def Obligations.WaitsChangeNothing : Prop :=
  ∀ (s : State), s.fault = none →
    (s.cmd = [] → step s = .next s ∧ s.status.getLsbD 1 = true) ∧
    (∀ hd, decode s.cmd = .waiting hd → (∀ k ∈ hd.slotFields, k < s.slots.length) →
      step s = .next s ∧ s.status.getLsbD 1 = false) ∧
    ∀ i rest, decode s.cmd = .command i rest → s.check i = none → s.din.length < dinCount i →
      step s = .next s ∧ s.status.getLsbD 1 = false

/-- 60_exceptions.md R273: a core with FAULT = 1 is a fault outcome, whatever stands in CMD. That nothing else stops is how the model
gives outcomes and no rule of the spec: a wait is a next state (log entry 2; R304 calls such a command not enabled), a command that
faults is a next state (log entry 3), and `exec` does not look at FAULT (log entry 15). -/
def Obligations.OnlyAFaultedCoreStops : Prop :=
  (∀ (i : Instr) (s : State), ∃ t, exec i s = .next t) ∧
  (∀ s : State, s.fault = none → ∃ t, step s = .next t) ∧
  ∀ (s : State) (c : FaultCode), s.fault = some c → step s = .fault (.stopped c)

/-- 60_exceptions.md R273, R275: whatever core and host do, short of reset, a faulted core keeps its code, its slots and P; it consumes no
CMD word and no DIN byte and writes no DOUT byte. -/
def Obligations.FaultIsFrozenUntilReset : Prop :=
  ∀ (es : List Event) (s : State) (c : FaultCode), s.fault = some c → Event.host .reset ∉ es →
    (s.reactAll es).fault = some c ∧ (s.reactAll es).slots = s.slots ∧ (s.reactAll es).p = s.p ∧
    (∃ ws, (s.reactAll es).cmd = s.cmd ++ ws) ∧ (∃ bs, (s.reactAll es).din = s.din ++ bs) ∧
    ∃ n, (s.reactAll es).dout = s.dout.drop n

/-- 10_state.md R37, 60_exceptions.md R271: the fields of STATUS. -/
def Obligations.StatusFieldsReadAsListed : Prop :=
  ∀ s : State, s.slots.length ≤ 16 →
    s.status.getLsbD 0 = s.fault.isSome ∧
    s.status.getLsbD 1 = s.cmd.isEmpty ∧
    s.status.extractLsb' 2 2 = 0 ∧
    (s.status.extractLsb' 4 4).toNat =
      (match s.fault with
       | none => 0
       | some .illegal => 1
       | some .badCtx => 2
       | some .mode => 3
       | some .keyEmpty => 4
       | some .keyTooLong => 5
       | some .emptySqueeze => 6) ∧
    (s.status.extractLsb' 8 5).toNat = s.slots.length ∧
    s.status.extractLsb' 13 19 = 0

/-- 70_reset_and_hazards.md R301: the reset values, for every NCTX, the hidden state among them; with NCTX = 4 STATUS is 0x00000402. -/
def Obligations.ResetLeavesTheListedValues : Prop :=
  (∀ n, 2 ≤ n → n ≤ 16 →
    (State.resetWith n).slots.length = n ∧
    (∀ c ∈ (State.resetWith n).slots,
      c.s = Vector.replicate 48 0 ∧ c.phase = .up ∧ c.phase.bit = 0 ∧ c.mode = .hash ∧ c.mode.bit = 0) ∧
    (State.resetWith n).p = Vector.replicate 48 0 ∧
    (State.resetWith n).fault = none ∧
    (State.resetWith n).status = BitVec.ofNat 32 (256 * n + 2) ∧
    (State.resetWith n).cmd = [] ∧ (State.resetWith n).din = [] ∧ (State.resetWith n).dout = []) ∧
  (State.resetWith 4).status = 0x00000402 ∧
  ∀ config, (Stream.resetWith config).core = State.resetWith config.nctx ∧ (Stream.resetWith config).busy = none

/-- 70_reset_and_hazards.md R300, R302: from every state, faulted or with a command in progress, reset gives the reset state and discards the
hidden state, and INIT_HASH of a slot gives that slot's reset value. -/
def Obligations.ResetForgetsEverything : Prop :=
  (∀ s : State, s.host .reset = State.resetWith s.slots.length) ∧
  (∀ σ : Stream, (σ.host .reset).core = State.resetWith σ.core.slots.length ∧ (σ.host .reset).busy = none) ∧
  ∀ (s t : State) (k : Nat), k < s.slots.length → exec (.initHash k) s = .next t →
    t.slots[k]? = (s.host .reset).slots[k]?

/-! Invariants of the command-level system. -/

/-- 10_state.md R30, R37, 00_scope.md R7: whatever core and host do, the number of slots stays NCTX. -/
def Obligations.EveryEventKeepsNctx : Prop :=
  ∀ (s : State) (e : Event), s.Legal →
    (s.react e).Legal ∧ (s.react e).slots.length = s.slots.length ∧ ∀ n, Reachable n s → s.slots.length = n

/-- 43_keyed_commands.md R237: no command changes the MODE of an existing object. A slot's MODE changes in a step only where the command is
INIT_HASH, INIT_KEYED or CLONE with that slot as destination, and by a host event only where it is reset. -/
def Obligations.ModeChangesOnlyByReplacement : Prop :=
  (∀ (s t : State) (k : Nat), step s = .next t →
    t.slots[k]?.map Context.mode ≠ s.slots[k]?.map Context.mode →
    ∃ i rest, decode s.cmd = .command i rest ∧
      (i = .initHash k ∨ (∃ a b c, i = .initKeyed k a b c) ∨ ∃ r, i = .clone k r)) ∧
  ∀ (s : State) (e : HostEvent) (k : Nat),
    (s.host e).slots[k]?.map Context.mode ≠ s.slots[k]?.map Context.mode → e = .reset

/-- 43_keyed_commands.md R230 (92_eei_decisions.md D32): every event keeps the invariant that each Keyed object began with a key
absorption, so a keyed-only command that executes acts on such an object. -/
def Obligations.KeyedObjectsBeganWithAKey : Prop :=
  (∀ (s : State) (e : Event), s.KeyedByKey → (s.react e).KeyedByKey) ∧
  ∀ (s : State) (i : Instr) (k : Nat), s.KeyedByKey → keyedOnly i = true → i.slotFields = [k] → s.check i = none →
    ∃ c, s.slots[k]? = some c ∧ c.mode = .keyed ∧ KeyDerived c

/-- 70_reset_and_hazards.md R301: after reset no object is Keyed, so the invariant of `KeyedObjectsBeganWithAKey` and the slot
bounds hold, and the finer machine's too. That `State.reset` has NCTX = 4 is the model's choice (log entry 1). -/
def Obligations.ResetMeetsTheInvariants : Prop :=
  State.reset = State.resetWith 4 ∧ State.reset.KeyedByKey ∧ State.reset.Legal ∧ (∀ n, (State.resetWith n).KeyedByKey) ∧
  ∀ config, (Stream.resetWith config).Inv

/-- 60_exceptions.md R277: in a stream that passes the mode check made when a program is built, the next command raises no MODE fault,
and after it executes the rest of the stream still passes. -/
def Obligations.ModeSafeStreamsNeverFaultWithMode : Prop :=
  ∀ (s : State) (i : Instr) (is : List Instr), modeSafe s.modes (i :: is) = true →
    s.check i ≠ some .mode ∧
    ∀ t, s.Ready i → exec i s = .next t → t.modes = modesAfter s.modes i ∧ modeSafe t.modes is = true

/-! The finer machine. -/

/-- 70_reset_and_hazards.md R306: while a command is in progress, a tick changes nothing about how the command will end (`none`: it
waits for DIN bytes), neither with the DIN bytes there are nor with any that may yet arrive. -/
def Obligations.TicksKeepTheFinalState : Prop :=
  ∀ (σ : Stream) (xs : Bytes), σ.Inv → σ.busy ≠ none → (σ.tick.withDin xs).finish = (σ.withDin xs).finish

/-- 70_reset_and_hazards.md R306, 20_memory.md R66: a tick that takes a command from CMD begins the command-level transition: with the DIN bytes
`xs` still to come, the command ends where `exec` puts it. A faulting command is over in that tick. -/
def Obligations.FetchBeginsTheAtomicTransition : Prop :=
  ∀ (σ : Stream) (xs : Bytes) (i : Instr) (rest : List Word) (t : State),
    σ.busy = none → σ.core.fault = none → decode σ.core.cmd = .command i rest →
    (σ.withDin xs).core.Ready i → exec i (σ.withDin xs).core = .next t →
    (σ.tick.withDin xs).finish = some t ∧ σ.tick.busy ≠ none

/-- 60_exceptions.md R272, 70_reset_and_hazards.md R304, R307: where no command can begin, a tick is the command-level step. -/
def Obligations.TickWithoutCommandIsTheStep : Prop :=
  ∀ (σ : Stream) (t : State), σ.busy = none → step σ.core = .next t →
    (∀ i rest, decode σ.core.cmd = .command i rest → σ.core.check i ≠ none) →
    σ.tick = { σ with core := t }

/-- 70_reset_and_hazards.md R306, R308, R309: a command that is ready and whose output fits DOUT completes after some number of ticks, in
the state `exec` gives, having run exactly the number of permutations R309 lists. The counter is the model's own (log entry 13). Output
beyond DOUT's room needs a host that removes bytes: `TicksKeepTheFinalState`, `HostEventsCommuteWithTheCommand` and
`DrainedCoreMakesProgress` speak of it. -/
def Obligations.ReadyCommandsComplete : Prop :=
  ∀ (σ : Stream) (i : Instr) (rest : List Word),
    σ.busy = none → σ.core.fault = none → decode σ.core.cmd = .command i rest → σ.core.Ready i →
    σ.core.dout.length + doutCount i ≤ σ.config.doutDepth →
    ∃ n t, exec i σ.core = .next t ∧
      σ.ticks n = { σ with core := t, permutations := σ.permutations + σ.core.permutationCount i }

/-- 70_reset_and_hazards.md R306, 20_memory.md R71: what the host does during a command adds to or takes from the queues, and the command ends
as before: a byte removed from DOUT is missing at its front, a byte or word written stands at its end. -/
def Obligations.HostEventsCommuteWithTheCommand : Prop :=
  ∀ (σ : Stream) (t : State), σ.finish = some t →
    (∀ w, (σ.host (.writeCmd w)).finish = some { t with cmd := t.cmd ++ [w] }) ∧
    (∀ b, σ.core.din.length < σ.config.dinDepth → (σ.host (.writeDin b)).finish = some { t with din := t.din ++ [b] }) ∧
    (σ.core.dout ≠ [] → (σ.host .readDout).finish = some { t with dout := t.dout.drop 1 }) ∧
    σ.host .readStatus = σ ∧ (σ.host .reset).finish = some (State.resetWith σ.core.slots.length)

/-- 93_implementation_defined.md ID13, 70_reset_and_hazards.md R300(e), R305: what stands in DOUT while a command runs is a prefix of
what the command-level transition gives; no byte is dropped or reordered. -/
def Obligations.DoutIsAPrefixOfTheFinalDout : Prop :=
  ∀ (σ : Stream) (t : State), σ.finish = some t → ∃ ys, t.dout = σ.core.dout ++ ys

/-- 70_reset_and_hazards.md R306: a host that drains DOUT and keeps DIN full cannot deadlock the core: with space in DOUT and 48 bytes in
DIN a command in progress moves on. -/
def Obligations.DrainedCoreMakesProgress : Prop :=
  ∀ (σ : Stream), σ.Inv → σ.busy ≠ none → σ.core.dout.length < σ.config.doutDepth → 48 ≤ σ.core.din.length →
    σ.tick ≠ σ

/-- 70_reset_and_hazards.md R306 (93_implementation_defined.md ID10): output waiting on a full DOUT and a host waiting on a full DIN deadlock;
removing a DOUT byte (R305), or reset, breaks it. That a write to a full DIN changes nothing is the model's inference from the host's
wait (log entry 18), not the spec's words. -/
def Obligations.FullQueuesDeadlock : Prop :=
  ∀ (σ : Stream) (b : InProgress), σ.busy = some b → b.out ≠ [] → σ.core.dout.length = σ.config.doutDepth →
    1 ≤ σ.config.doutDepth → σ.config.dinDepth ≤ σ.core.din.length →
    σ.Deadlocked ∧ (σ.host .readDout).tick ≠ σ.host .readDout ∧ (σ.host .reset).busy = none

/-- 70_reset_and_hazards.md R311: what the core does next, up to the values of data bytes, depends on no value of a key, data or
state byte: two cores that differ in such values only still do after any number of ticks, and after a host event,
with different DIN bytes too. -/
def Obligations.StepsAreDataIndependent : Prop :=
  ∀ σ τ : Stream, σ.blank = τ.blank →
    (∀ n, (σ.ticks n).blank = (τ.ticks n).blank) ∧
    (∀ e, (σ.host e).blank = (τ.host e).blank) ∧
    ∀ b b', (σ.host (.writeDin b)).blank = (τ.host (.writeDin b')).blank

/-- 10_state.md R38, R40, 60_exceptions.md R273: every tick and every host event keeps the finer machine's invariant: the round index
stays in 0 to 11, and a faulted core has no command in progress. -/
def Obligations.FinerMachineKeepsItsInvariant : Prop :=
  ∀ (σ : Stream) (e : Event), σ.Inv → (σ.react e).Inv

/-- 10_state.md R37, 70_reset_and_hazards.md R307: STATUS read while a command is in progress shows IDLE = 0 and FAULT = 0. -/
def Obligations.StatusDuringACommand : Prop :=
  ∀ (σ : Stream), σ.Inv → σ.busy ≠ none →
    σ.status.getLsbD 1 = false ∧ σ.status.getLsbD 0 = false
end

