-- ==== Sys2Proof/Laws/Decode.lean ====
section
/-! SUPPORT. The lemmas of the decoder and the encoder: a header word as its four fields, and what a decoded header
says about them. -/

namespace Sys2Proof

/-- A field as a number. -/
theorem field_eq (h : Word) (lo len : Nat) : field h lo len = h.toNat / 2 ^ lo % 2 ^ len := by
  simp [field, BitVec.extractLsb'_toNat, Nat.shiftRight_eq_div_pow]

theorem field_lt (h : Word) (lo len : Nat) : field h lo len < 2 ^ len := by
  rw [field_eq]; exact Nat.mod_lt _ (Nat.two_pow_pos len)

@[simp] theorem Opcode.ofNumber_number (r : Opcode) : Opcode.ofNumber? r.number = some r := by cases r <;> rfl

theorem Opcode.number_lt (r : Opcode) : r.number < 256 := by cases r <;> decide

theorem Opcode.number_of_ofNumber {n : Nat} {r : Opcode} (h : Opcode.ofNumber? n = some r) : r.number = n := by
  unfold Opcode.ofNumber? at h
  split at h <;> first | (cases h; rfl) | cases h

/-- The header word with the given fields, RSV = 0. -/
def headerOf (c2 c opc : Nat) : Word := 0#16 ++ BitVec.ofNat 4 c2 ++ BitVec.ofNat 4 c ++ BitVec.ofNat 8 opc

theorem headerOf_toNat {c2 c opc : Nat} (h2 : c2 < 16) (h1 : c < 16) (h0 : opc < 256) :
    (headerOf c2 c opc).toNat = c2 * 4096 + c * 256 + opc := by
  have e2 : (BitVec.ofNat 4 c2).toNat = c2 := Nat.mod_eq_of_lt h2
  have e1 : (BitVec.ofNat 4 c).toNat = c := Nat.mod_eq_of_lt h1
  have e0 : (BitVec.ofNat 8 opc).toNat = opc := Nat.mod_eq_of_lt h0
  simp only [headerOf, BitVec.toNat_append, e2, e1, e0, BitVec.toNat_ofNat, Nat.shiftLeft_eq,
    Nat.mul_comm _ (2 ^ 4), Nat.mul_comm _ (2 ^ 8)]
  rw [← Nat.two_pow_add_eq_or_of_lt (by omega), ← Nat.two_pow_add_eq_or_of_lt (by omega),
    ← Nat.two_pow_add_eq_or_of_lt (by omega)]
  omega

/-- A word is its four fields. -/
theorem word_eq_fields (h : Word) (hr : field h 16 16 = 0) :
    h = headerOf (field h 12 4) (field h 8 4) (field h 0 8) := by
  apply BitVec.eq_of_toNat_eq
  rw [headerOf_toNat (field_lt h 12 4) (field_lt h 8 4) (field_lt h 0 8)]
  have := h.isLt
  simp only [field_eq] at hr ⊢
  omega

/-- The decoder reads the fields back. -/
theorem decodeHeader_headerOf {r : Opcode} {c c2 : Nat} (hc : c < 16) (hc2 : c2 < 16)
    (h1 : r.usesCtx = false → c = 0) (h2 : r.usesCtx2 = false → c2 = 0) :
    decodeHeader (headerOf c2 c r.number) = some { row := r, ctx := c, ctx2 := c2 } := by
  have hn := r.number_lt
  have e := headerOf_toNat hc2 hc hn
  have f0 : field (headerOf c2 c r.number) 16 16 = 0 := by rw [field_eq, e]; omega
  have f1 : field (headerOf c2 c r.number) 0 8 = r.number := by rw [field_eq, e]; omega
  have f2 : field (headerOf c2 c r.number) 8 4 = c := by rw [field_eq, e]; omega
  have f3 : field (headerOf c2 c r.number) 12 4 = c2 := by rw [field_eq, e]; omega
  simp only [decodeHeader, f0, f1, f2, f3, Opcode.ofNumber_number]
  cases hx : r.usesCtx <;> cases hy : r.usesCtx2 <;> simp_all

/-- What a decoded header says about its word. -/
theorem decodeHeader_some {h : Word} {hd : Header} (e : decodeHeader h = some hd) :
    field h 16 16 = 0 ∧ hd.row.number = field h 0 8 ∧ hd.ctx = field h 8 4 ∧ hd.ctx2 = field h 12 4 ∧
      (hd.row.usesCtx = false → hd.ctx = 0) ∧ (hd.row.usesCtx2 = false → hd.ctx2 = 0) := by
  unfold decodeHeader at e
  split at e
  · cases e
  rename_i h0
  split at e
  · cases e
  rename_i r hr
  split at e
  · cases e
  split at e
  · cases e
  injection e with e
  subst e
  refine ⟨by simpa using h0, Opcode.number_of_ofNumber hr, rfl, rfl, ?_, ?_⟩ <;> intro hu <;> simp_all

/-- A command's header word. -/
theorem Instr.headerWord_eq (i : Instr) :
    i.headerWord = headerOf (i.slotFields.getD 1 0) (i.slotFields.getD 0 0) i.row.number := rfl

/-- A command has the number of length words of its row. -/
theorem Instr.lengths_length (i : Instr) : i.lengths.length = i.row.lengthWords := by cases i <;> rfl

/-- A well-formed command's header word decodes to its row and slot fields. -/
theorem decodeHeader_headerWord {i : Instr} (h : i.wf = true) :
    decodeHeader i.headerWord
      = some { row := i.row, ctx := i.slotFields.getD 0 0, ctx2 := i.slotFields.getD 1 0 } := by
  rw [Instr.headerWord_eq]
  apply decodeHeader_headerOf <;> cases i <;>
    simp_all [Instr.wf, Instr.slotFields, Instr.row, Opcode.usesCtx, Opcode.usesCtx2]

/-- A command's fields give the command back. -/
theorem Instr.command_of_fields (i : Instr) :
    Header.command { row := i.row, ctx := i.slotFields.getD 0 0, ctx2 := i.slotFields.getD 1 0 } i.lengths = i := by
  cases i <;> rfl

/-- The command of a header and its length words has that row, those slot fields and those length words. -/
theorem Header.command_fields {hd : Header} {vs : List Word} (hl : vs.length = hd.row.lengthWords)
    (b1 : hd.ctx < 16) (b2 : hd.ctx2 < 16) (a1 : hd.row.usesCtx = false → hd.ctx = 0)
    (a2 : hd.row.usesCtx2 = false → hd.ctx2 = 0) :
    (hd.command (vs.map BitVec.toNat)).wf = true ∧
      (hd.command (vs.map BitVec.toNat)).headerWord = headerOf hd.ctx2 hd.ctx hd.row.number ∧
      (hd.command (vs.map BitVec.toNat)).lengths.map (BitVec.ofNat 32) = vs := by
  have lw : ∀ v : Word, v.toNat < 4294967296 := fun v => v.isLt
  obtain ⟨r, c, c2⟩ := hd
  cases r <;> simp only [Opcode.lengthWords] at hl <;>
    simp only [Opcode.usesCtx, Opcode.usesCtx2, true_implies, Bool.true_eq_false, false_implies] at a1 a2 b1 b2 <;>
    subst_vars
  case initKeyed =>
    match vs, hl with
    | [x, y, z], _ => simp [Header.command, Instr.wf, Instr.slotFields, Instr.lengths, Instr.headerWord_eq, Instr.row, b1, lw]
  all_goals
    first
    | (match vs, hl with
       | [], _ => simp [Header.command, Instr.wf, Instr.slotFields, Instr.lengths, Instr.headerWord_eq, Instr.row, *])
    | (match vs, hl with
       | [x], _ => simp [Header.command, Instr.wf, Instr.slotFields, Instr.lengths, Instr.headerWord_eq, Instr.row, *])

/-- The slot fields of a decoded command are those of its header. -/
theorem Header.command_slotFields (hd : Header) (ls : List Nat) :
    (hd.command ls).slotFields = hd.slotFields := by
  obtain ⟨r, c, c2⟩ := hd
  cases r <;> rfl

end Sys2Proof
end

