-- ==== Sys2Proof/Laws/Duplex.lean ====
section
/-! SUPPORT. What the duplex primitives do to MODE and PHASE, how long their outputs are, and how their loops
unfold chunk by chunk. -/

namespace Sys2Proof.Machine

open Sys2Proof

/-! MODE: no primitive changes it. -/

@[simp] theorem Context.down_mode (c : Context) (x : Bytes) (f : Flag) : (c.down x f).mode = c.mode := by
  simp only [Context.down]
@[simp] theorem Context.down_phase (c : Context) (x : Bytes) (f : Flag) : (c.down x f).phase = .down := by
  simp only [Context.down]

@[simp] theorem Context.upFlag_mode (c : Context) (f : Flag) : (c.upFlag f).mode = c.mode := by
  unfold Context.upFlag; split <;> rfl

@[simp] theorem Context.upFlag_phase (c : Context) (f : Flag) : (c.upFlag f).phase = c.phase := by
  unfold Context.upFlag; split <;> rfl

@[simp] theorem Context.up_mode (c : Context) (f : Flag) : (c.up f).mode = c.mode := by
  simp only [Context.up, Context.upFlag_mode]
@[simp] theorem Context.up_phase (c : Context) (f : Flag) : (c.up f).phase = .up := by
  simp only [Context.up]

@[simp] theorem Context.ensureUp_mode (c : Context) : c.ensureUp.mode = c.mode := by
  unfold Context.ensureUp; split <;> simp

@[simp] theorem Context.ensureUp_phase (c : Context) : c.ensureUp.phase = .up := by
  unfold Context.ensureUp; split <;> simp_all

theorem Context.ensureUp_of_up {c : Context} (h : c.phase = .up) : c.ensureUp = c := by
  simp [Context.ensureUp, h]

theorem Context.ensureUp_of_down {c : Context} (h : c.phase = .down) : c.ensureUp = c.up .zero := by
  simp [Context.ensureUp, h]

@[simp] theorem Context.absorbChunks_mode (c : Context) (xs : List Bytes) (f : Flag) :
    (c.absorbChunks xs f).mode = c.mode := by
  induction xs generalizing c f with
  | nil => rfl
  | cons x xs ih => simp [Context.absorbChunks, ih]

@[simp] theorem Context.absorbAny_mode (c : Context) (x : Bytes) (r : Nat) (f : Flag) :
    (c.absorbAny x r f).mode = c.mode := c.absorbChunks_mode _ f

@[simp] theorem Context.upTo_fst (c : Context) (n : Nat) (f : Flag) : (c.upTo n f).1 = (c.up f).s.first n := by
  simp only [Context.upTo]
@[simp] theorem Context.upTo_snd (c : Context) (n : Nat) (f : Flag) : (c.upTo n f).2 = c.up f := by
  simp only [Context.upTo]

@[simp] theorem Context.squeezeMore_mode (c : Context) (fuel left : Nat) :
    (c.squeezeMore fuel left).2.mode = c.mode := by
  induction fuel generalizing c left with
  | zero => rfl
  | succ fuel ih => simp only [Context.squeezeMore]; split <;> simp [ih]

@[simp] theorem Context.squeezeAny_mode (c : Context) (n : Nat) (f : Flag) :
    (c.squeezeAny n f).2.mode = c.mode := by simp [Context.squeezeAny]

@[simp] theorem Context.cryptBlock_mode (c : Context) (x : Bytes) (d : Bool) :
    (c.cryptBlock x d).2.mode = c.mode := by
  simp [Context.cryptBlock]

@[simp] theorem Context.cryptChunks_mode (c : Context) (d : Bool) (xs : List Bytes) (f : Flag) :
    (c.cryptChunks d xs f).2.mode = c.mode := by
  induction xs generalizing c f with
  | nil => rfl
  | cons x xs ih => simp [Context.cryptChunks, ih]

@[simp] theorem Context.crypt_mode (c : Context) (x : Bytes) (d : Bool) :
    (c.crypt x d).2.mode = c.mode := c.cryptChunks_mode d _ _

@[simp] theorem Context.ratchet_mode (c : Context) : c.ratchet.mode = c.mode := by simp [Context.ratchet]

@[simp] theorem Context.construct_mode (m : Mode) : (Context.construct m).mode = m := rfl

@[simp] theorem Context.keyedFrom_mode (x : Bytes) (kl il cl : Nat) :
    (Context.keyedFrom x kl il cl).mode = .keyed := by
  simp only [Context.keyedFrom]; split <;> simp

/-! Lengths. -/

theorem Block.first_length (s : Block) (n : Nat) (h : n ≤ 48) : (s.first n).length = n := by
  simp [Block.first, h]

theorem Block.mask_length (s : Block) (x : Bytes) (h : x.length ≤ 48) : (s.mask x).length = x.length := by
  simp [Block.mask, h]

theorem Mode.squeezeRate_pos (m : Mode) : 0 < m.squeezeRate := by cases m <;> decide
theorem Mode.squeezeRate_le (m : Mode) : m.squeezeRate ≤ 24 := by cases m <;> decide
theorem Mode.absorbRate_pos (m : Mode) : 0 < m.absorbRate := by cases m <;> decide
theorem Mode.absorbRate_le (m : Mode) : m.absorbRate ≤ 44 := by cases m <;> decide

/-! The chunks of a string. -/

/-- At most one rate: one chunk, the string itself. -/
theorem split_of_le {x : Bytes} {r : Nat} (hr : 0 < r) (h : x.length ≤ r) : split x r = [x] := by
  have : numChunks x.length r = 1 := by
    unfold numChunks
    have : (x.length + r - 1) / r ≤ 1 := by
      rw [Nat.div_le_iff_le_mul_add_pred hr]; omega
    omega
  simp [split, this, List.take_of_length_le h]

/-- More than one rate: a full chunk, then the chunks of the rest. -/
theorem split_of_gt {x : Bytes} {r : Nat} (hr : 0 < r) (h : r < x.length) :
    split x r = x.take r :: split (x.drop r) r := by
  have hn : numChunks x.length r = numChunks (x.drop r).length r + 1 := by
    unfold numChunks
    have e : x.length + r - 1 = (x.length - r + r - 1) + r := by omega
    have p : 1 ≤ (x.length - r + r - 1) / r := by
      rw [Nat.le_div_iff_mul_le hr]; omega
    rw [e, Nat.add_div_right _ hr, List.length_drop]
    omega
  simp only [split, hn, List.range_succ_eq_map, List.map_cons, List.map_map, Nat.zero_mul, List.drop_zero]
  congr 1
  apply List.map_congr_left
  intro k _
  simp only [Function.comp, List.drop_drop, Nat.succ_mul]
  congr 2
  omega

theorem numChunks_of_le {n r : Nat} (hr : 0 < r) (h : n ≤ r) : numChunks n r = 1 := by
  unfold numChunks
  have : (n + r - 1) / r ≤ 1 := by
    rw [Nat.div_le_iff_le_mul_add_pred hr]; omega
  omega

theorem numChunks_of_gt {n r : Nat} (hr : 0 < r) (h : r < n) : numChunks n r = numChunks (n - r) r + 1 := by
  unfold numChunks
  have e : n + r - 1 = (n - r + r - 1) + r := by omega
  have p : 1 ≤ (n - r + r - 1) / r := by
    rw [Nat.le_div_iff_mul_le hr]; omega
  rw [e, Nat.add_div_right _ hr]
  omega

/-! The loops, one chunk at a time. -/

/-- `absorb_any` of at most one rate is one `down`. -/
theorem Context.absorbAny_of_le {x : Bytes} {r : Nat} (hr : 0 < r) (h : x.length ≤ r) (c : Context) (f : Flag) :
    c.absorbAny x r f = c.ensureUp.down x f := by
  simp [Context.absorbAny, split_of_le hr h, Context.absorbChunks]

/-- `absorb_any` of more than one rate is one `down` and then the rest with flag Zero. -/
theorem Context.absorbAny_of_gt {x : Bytes} {r : Nat} (hr : 0 < r) (h : r < x.length) (c : Context) (f : Flag) :
    c.absorbAny x r f = (c.ensureUp.down (x.take r) f).absorbAny (x.drop r) r .zero := by
  simp [Context.absorbAny, split_of_gt hr h, Context.absorbChunks]

/-- PHASE is tested before the first chunk only in effect: an object that is Down starts with `up(Zero)`. -/
theorem Context.absorbAny_ensureUp {r : Nat} (hr : 0 < r) (c : Context) (x : Bytes) (f : Flag) :
    c.ensureUp.absorbAny x r f = c.absorbAny x r f := by
  have e : c.ensureUp.ensureUp = c.ensureUp := Context.ensureUp_of_up c.ensureUp_phase
  by_cases h : x.length ≤ r
  · rw [Context.absorbAny_of_le hr h, Context.absorbAny_of_le hr h, e]
  · rw [Context.absorbAny_of_gt hr (by omega) c, Context.absorbAny_of_gt hr (by omega) c.ensureUp, e]

/-- The squeeze loop with bytes to go is `down(ε, Zero)` and a squeeze with flag Zero. -/
theorem Context.squeezeMore_eq (c : Context) {fuel left : Nat} (hl : 0 < left) (hf : left ≤ fuel) :
    c.squeezeMore fuel left = (c.down [] .zero).squeezeAny left .zero := by
  induction fuel using Nat.strong_induction_on generalizing c left with
  | _ fuel ih =>
    obtain ⟨fuel, rfl⟩ : ∃ m, fuel = m + 1 := ⟨fuel - 1, by omega⟩
    have hp := c.mode.squeezeRate_pos
    simp only [Context.squeezeMore, if_neg (Nat.pos_iff_ne_zero.1 hl), Context.squeezeAny, Context.down_mode,
      Context.upTo_snd, Context.upTo_fst]
    by_cases h0 : left - min left c.mode.squeezeRate = 0
    · rw [h0]
      cases fuel <;> rfl
    · rw [ih fuel (by omega) _ (by omega) (by omega), ih _ (by omega) _ (by omega) (Nat.le_refl _)]

/-- A squeeze of at most one rate. -/
theorem Context.squeezeAny_of_le {c : Context} {n : Nat} (h : n ≤ c.mode.squeezeRate) (f : Flag) :
    c.squeezeAny n f = ((c.up f).s.first n, c.up f) := by
  simp [Context.squeezeAny, Nat.min_eq_left h, Context.squeezeMore]

/-- A squeeze of more than one rate: one full chunk, `down(ε, Zero)`, and the rest with flag Zero. -/
theorem Context.squeezeAny_of_gt {c : Context} {n : Nat} (h : c.mode.squeezeRate < n) (f : Flag) :
    c.squeezeAny n f =
      ((c.up f).s.first c.mode.squeezeRate
          ++ (((c.up f).down [] .zero).squeezeAny (n - c.mode.squeezeRate) .zero).1,
        (((c.up f).down [] .zero).squeezeAny (n - c.mode.squeezeRate) .zero).2) := by
  conv => lhs; unfold Context.squeezeAny
  simp only [Nat.min_eq_right (Nat.le_of_lt h), Context.upTo_snd, Context.upTo_fst]
  rw [Context.squeezeMore_eq _ (by omega) (Nat.le_refl _)]

/-- crypt of at most one block. -/
theorem Context.cryptChunks_of_le {x : Bytes} (h : x.length ≤ cryptRate) (c : Context) (d : Bool) (f : Flag) :
    c.cryptChunks d (split x cryptRate) f = (c.up f).cryptBlock x d := by
  simp [split_of_le (by decide) h, Context.cryptChunks]

/-- crypt of more than one block. -/
theorem Context.cryptChunks_of_gt {x : Bytes} (h : cryptRate < x.length) (c : Context) (d : Bool) (f : Flag) :
    c.cryptChunks d (split x cryptRate) f =
      (((c.up f).cryptBlock (x.take cryptRate) d).1
          ++ (((c.up f).cryptBlock (x.take cryptRate) d).2.cryptChunks d (split (x.drop cryptRate) cryptRate) .zero).1,
        (((c.up f).cryptBlock (x.take cryptRate) d).2.cryptChunks d (split (x.drop cryptRate) cryptRate) .zero).2) := by
  rw [split_of_gt (by decide) h]
  rfl

/-! Bytes of a state after the primitives. -/

theorem Block.xorBytes_get (s : Block) (x : Bytes) (i : Nat) (hi : i < 48) :
    (s.xorBytes x)[i] = s[i] ^^^ x.getD i 0 := by
  simp [Block.xorBytes]

theorem Block.xorAt_get (s : Block) (n : Nat) (b : Byte) (i : Nat) (hi : i < 48) :
    (s.xorAt n b)[i] = if i = n then s[i] ^^^ b else s[i] := by
  simp [Block.xorAt]

theorem Block.xorAt_eq_set (s : Block) (n : Nat) (b : Byte) (h : n < 48) : s.xorAt n b = s.set n (s[n] ^^^ b) := by
  ext1 i hi
  rw [Block.xorAt_get, Vector.getElem_set]
  split
  · subst_vars; simp
  · rw [if_neg (by omega)]

/-- Every byte of a state after `down`, for any block. -/
theorem Context.down_get (c : Context) (x : Bytes) (f : Flag) (i : Nat) (hi : i < 48) :
    (c.down x f).s[i] =
      if i = 47 then
        (if i = x.length then (c.s[i] ^^^ x.getD i 0) ^^^ 1 else c.s[i] ^^^ x.getD i 0) ^^^ c.mode.downFlag f
      else if i = x.length then (c.s[i] ^^^ x.getD i 0) ^^^ 1 else c.s[i] ^^^ x.getD i 0 := by
  simp only [Context.down, Block.xorAt_get, Block.xorBytes_get]

/-- Every output byte of a crypt turn. -/
theorem Block.mask_get (s : Block) (x : Bytes) (i : Nat) (h : i < x.length) (h2 : i < 48) :
    (s.mask x)[i]? = some (s[i] ^^^ x[i]) := by
  simp [Block.mask, h, h2, BitVec.xor_comm]

/-! PHASE after the loops. -/

theorem Context.absorbChunks_phase (c : Context) (xs : List Bytes) (f : Flag) (h : xs ≠ [] ∨ c.phase = .down) :
    (c.absorbChunks xs f).phase = .down := by
  induction xs generalizing c f with
  | nil => simpa [Context.absorbChunks] using h
  | cons x xs ih => simp only [Context.absorbChunks]; exact ih _ _ (.inr (by simp))

theorem Context.absorbAny_phase (c : Context) (x : Bytes) (r : Nat) (f : Flag) :
    (c.absorbAny x r f).phase = .down := by
  apply Context.absorbChunks_phase
  left
  apply List.ne_nil_of_length_pos
  simp [split, numChunks]

/-! The chunks by index. -/

theorem split_length (x : Bytes) (r : Nat) : (split x r).length = numChunks x.length r := by simp [split]

theorem split_get (x : Bytes) (r k : Nat) (h : k < numChunks x.length r) :
    (split x r).getD k [] = (x.drop (k * r)).take r := by
  simp [split, List.getD, h]

end Sys2Proof.Machine
end

