-- ==== Sys2Proof/Laws/State.lean ====
section
/-! SUPPORT. The small lemmas of State: one per field and update, and what each operation on it does. -/

namespace Sys2Proof.Machine

open Sys2Proof

@[simp] theorem State.takeCmd_slots (s : State) (n : Nat) : (s.takeCmd n).slots = s.slots := rfl
@[simp] theorem State.takeCmd_p (s : State) (n : Nat) : (s.takeCmd n).p = s.p := rfl
@[simp] theorem State.takeCmd_fault (s : State) (n : Nat) : (s.takeCmd n).fault = s.fault := rfl
@[simp] theorem State.takeCmd_cmd (s : State) (n : Nat) : (s.takeCmd n).cmd = s.cmd.drop n := rfl
@[simp] theorem State.takeCmd_din (s : State) (n : Nat) : (s.takeCmd n).din = s.din := rfl
@[simp] theorem State.takeCmd_dout (s : State) (n : Nat) : (s.takeCmd n).dout = s.dout := rfl

@[simp] theorem State.doutWrite_slots (s : State) (y : Bytes) : (s.doutWrite y).slots = s.slots := rfl
@[simp] theorem State.doutWrite_p (s : State) (y : Bytes) : (s.doutWrite y).p = s.p := rfl
@[simp] theorem State.doutWrite_fault (s : State) (y : Bytes) : (s.doutWrite y).fault = s.fault := rfl
@[simp] theorem State.doutWrite_cmd (s : State) (y : Bytes) : (s.doutWrite y).cmd = s.cmd := rfl
@[simp] theorem State.doutWrite_din (s : State) (y : Bytes) : (s.doutWrite y).din = s.din := rfl
@[simp] theorem State.doutWrite_dout (s : State) (y : Bytes) : (s.doutWrite y).dout = s.dout ++ y := rfl

@[simp] theorem State.onSlot_slots (s : State) (k : Nat) (f : Context → Context) : (s.onSlot k f).slots = s.slots.modify k f := rfl
@[simp] theorem State.onSlot_p (s : State) (k : Nat) (f : Context → Context) : (s.onSlot k f).p = s.p := rfl
@[simp] theorem State.onSlot_fault (s : State) (k : Nat) (f : Context → Context) : (s.onSlot k f).fault = s.fault := rfl
@[simp] theorem State.onSlot_cmd (s : State) (k : Nat) (f : Context → Context) : (s.onSlot k f).cmd = s.cmd := rfl
@[simp] theorem State.onSlot_din (s : State) (k : Nat) (f : Context → Context) : (s.onSlot k f).din = s.din := rfl
@[simp] theorem State.onSlot_dout (s : State) (k : Nat) (f : Context → Context) : (s.onSlot k f).dout = s.dout := rfl

@[simp] theorem State.enterFault_slots (s : State) (c : FaultCode) (n : Nat) : (s.enterFault c n).slots = s.slots := rfl
@[simp] theorem State.enterFault_p (s : State) (c : FaultCode) (n : Nat) : (s.enterFault c n).p = s.p := rfl
@[simp] theorem State.enterFault_fault (s : State) (c : FaultCode) (n : Nat) : (s.enterFault c n).fault = some (s.fault.getD c) := rfl
@[simp] theorem State.enterFault_cmd (s : State) (c : FaultCode) (n : Nat) : (s.enterFault c n).cmd = s.cmd.drop (c.wordsConsumed n) := rfl
@[simp] theorem State.enterFault_din (s : State) (c : FaultCode) (n : Nat) : (s.enterFault c n).din = s.din := rfl
@[simp] theorem State.enterFault_dout (s : State) (c : FaultCode) (n : Nat) : (s.enterFault c n).dout = s.dout := rfl

@[simp] theorem State.resetWith_slots (n : Nat) : (State.resetWith n).slots = List.replicate n Context.reset := rfl
@[simp] theorem State.resetWith_p (n : Nat) : (State.resetWith n).p = Block.zero := rfl
@[simp] theorem State.resetWith_fault (n : Nat) : (State.resetWith n).fault = none := rfl
@[simp] theorem State.resetWith_cmd (n : Nat) : (State.resetWith n).cmd = [] := rfl
@[simp] theorem State.resetWith_din (n : Nat) : (State.resetWith n).din = [] := rfl
@[simp] theorem State.resetWith_dout (n : Nat) : (State.resetWith n).dout = [] := rfl

/-! DinRead. -/

/-- Everything `DinRead` can do when it answers. -/
theorem State.dinRead_eq_some {s t : State} {n : Nat} {x : Bytes} :
    s.dinRead n = some (x, t) ↔
      n ≤ s.din.length ∧ x = s.din.take n ∧ t = { s with din := s.din.drop n } := by
  unfold State.dinRead
  split <;> simp_all [eq_comm]

theorem State.dinRead_of_le {s : State} {n : Nat} (h : n ≤ s.din.length) :
    s.dinRead n = some (s.din.take n, { s with din := s.din.drop n }) := if_pos h

/-- It waits while DIN is short. -/
theorem State.dinRead_eq_none {s : State} {n : Nat} : s.dinRead n = none ↔ s.din.length < n := by
  unfold State.dinRead
  split <;> simp_all

/-! Slots. -/

/-- Slot `j` after a change of slot `k`. -/
theorem State.onSlot_get (s : State) (k j : Nat) (f : Context → Context) :
    (s.onSlot k f).slots[j]? = if k = j then s.slots[j]?.map f else s.slots[j]? := by
  rw [State.onSlot_slots, List.getElem?_modify]
  split <;> simp

@[simp] theorem State.onSlot_nctx (s : State) (k : Nat) (f : Context → Context) :
    (s.onSlot k f).slots.length = s.slots.length := by simp

/-- A change of a slot that exists, with output. -/
theorem State.onSlotOut_of_slot {s : State} {k : Nat} {c : Context} (h : s.slots[k]? = some c)
    (f : Context → Bytes × Context) :
    s.onSlotOut k f = (s.onSlot k fun _ => (f c).2).doutWrite (f c).1 := by
  simp [State.onSlotOut, h]

@[simp] theorem State.onSlotOut_nctx (s : State) (k : Nat) (f : Context → Bytes × Context) :
    (s.onSlotOut k f).slots.length = s.slots.length := by
  unfold State.onSlotOut; split <;> simp

@[simp] theorem State.onSlotOut_p (s : State) (k : Nat) (f : Context → Bytes × Context) :
    (s.onSlotOut k f).p = s.p := by
  unfold State.onSlotOut; split <;> rfl

@[simp] theorem State.onSlotOut_fault (s : State) (k : Nat) (f : Context → Bytes × Context) :
    (s.onSlotOut k f).fault = s.fault := by
  unfold State.onSlotOut; split <;> rfl

@[simp] theorem State.onSlotOut_cmd (s : State) (k : Nat) (f : Context → Bytes × Context) :
    (s.onSlotOut k f).cmd = s.cmd := by
  unfold State.onSlotOut; split <;> rfl

@[simp] theorem State.onSlotOut_din (s : State) (k : Nat) (f : Context → Bytes × Context) :
    (s.onSlotOut k f).din = s.din := by
  unfold State.onSlotOut; split <;> rfl

/-- Slot `j` after a change of slot `k` with output. -/
theorem State.onSlotOut_get (s : State) (k j : Nat) (f : Context → Bytes × Context) :
    (s.onSlotOut k f).slots[j]? = if k = j then s.slots[j]?.map (fun c => (f c).2) else s.slots[j]? := by
  unfold State.onSlotOut
  split
  · rename_i h
    split
    · rename_i hk; subst hk; simp [h]
    · rfl
  · rename_i c h
    rw [State.doutWrite_slots, State.onSlot_get]
    split
    · rename_i hk; subst hk; simp [h]
    · rfl

/-- DOUT after a change of slot `k` with output. -/
theorem State.onSlotOut_dout (s : State) (k : Nat) (f : Context → Bytes × Context) :
    (s.onSlotOut k f).dout = s.dout ++ (s.slots[k]?.map fun c => (f c).1).getD [] := by
  unfold State.onSlotOut
  split <;> rename_i h <;> simp [h]

/-! Host events. -/

@[simp] theorem State.host_nctx (s : State) (e : HostEvent) : (s.host e).slots.length = s.slots.length := by
  cases e <;> simp [State.host, State.resetEvent]

/-! Changes of slots compose. -/

/-- Two changes that agree on the slot's context are one. -/
theorem State.onSlot_congr {s : State} {k : Nat} {f g : Context → Context}
    (h : ∀ c, s.slots[k]? = some c → f c = g c) : s.onSlot k f = s.onSlot k g := by
  unfold State.onSlot
  congr 1
  apply List.ext_getElem?
  intro j
  rw [List.getElem?_modify, List.getElem?_modify]
  by_cases hj : k = j
  · subst hj
    cases hc : s.slots[k]? with
    | none => rfl
    | some c => simp [h c hc]
  · simp [hj]

theorem State.onSlot_onSlot (s : State) (k : Nat) (f g : Context → Context) :
    (s.onSlot k f).onSlot k g = s.onSlot k fun c => g (f c) := by
  unfold State.onSlot
  congr 1
  simp only
  apply List.ext_getElem?
  intro j
  simp only [List.getElem?_modify]
  cases s.slots[j]? <;> simp; split <;> rfl

theorem State.onSlot_id (s : State) (k : Nat) : s.onSlot k (fun c => c) = s := by
  unfold State.onSlot
  congr 1
  apply List.ext_getElem?
  intro j
  simp only [List.getElem?_modify]
  cases s.slots[j]? <;> simp

/-- A change of a slot that exists replaces its context. -/
theorem State.onSlot_of_slot {s : State} {k : Nat} {c : Context} (h : s.slots[k]? = some c)
    (f : Context → Context) : s.onSlot k f = { s with slots := s.slots.set k (f c) } := by
  unfold State.onSlot
  congr 1
  apply List.ext_getElem?
  intro j
  rw [List.getElem?_modify, List.getElem?_set]
  by_cases h2 : k = j
  · subst h2; obtain ⟨h3, h4⟩ := List.getElem?_eq_some_iff.1 h; simp [h3, h4]
  · simp [h2]

theorem State.doutWrite_doutWrite (s : State) (x y : Bytes) :
    (s.doutWrite x).doutWrite y = s.doutWrite (x ++ y) := by
  simp [State.doutWrite]

theorem State.doutWrite_nil (s : State) : s.doutWrite [] = s := by simp [State.doutWrite]

/-- DinRead reads neither slots nor P. -/
theorem State.dinRead_onSlot (s : State) (k n : Nat) (f : Context → Context) :
    (s.onSlot k f).dinRead n = (s.dinRead n).map fun r => (r.1, r.2.onSlot k f) := by
  unfold State.dinRead
  rw [State.onSlot_din]
  by_cases h : n ≤ s.din.length
  · rw [if_pos h, if_pos h]; rfl
  · rw [if_neg h, if_neg h]; rfl

/-- Two reads in a row are one. -/
theorem State.dinRead_add (s : State) (n m : Nat) :
    s.dinRead (n + m) = (s.dinRead n).bind fun r => (r.2.dinRead m).map fun q => (r.1 ++ q.1, q.2) := by
  unfold State.dinRead
  by_cases h : n + m ≤ s.din.length
  · rw [if_pos h, if_pos (by omega)]
    simp only [Option.bind_some, List.length_drop]
    rw [if_pos (by omega)]
    simp [List.take_add, List.drop_drop]
  · rw [if_neg h]
    by_cases h1 : n ≤ s.din.length
    · rw [if_pos h1]; simp only [Option.bind_some, List.length_drop]; rw [if_neg (by omega)]; rfl
    · rw [if_neg h1]; rfl

end Sys2Proof.Machine
end

