-- ==== Sys2Proof/Laws/Exec.lean ====
section
/-! SUPPORT. What `perform`, `exec` and `step` can do, said once. -/

namespace Sys2Proof.Machine

open Sys2Proof

/-- The state in which a command's effect takes place: its words and its DIN bytes are consumed. -/
def State.consumed (s : State) (i : Instr) : State :=
  { s with din := s.din.drop (dinCount i), cmd := s.cmd.drop i.words }

@[simp] theorem State.consumed_slots (s : State) (i : Instr) : (s.consumed i).slots = s.slots := rfl
@[simp] theorem State.consumed_p (s : State) (i : Instr) : (s.consumed i).p = s.p := rfl
@[simp] theorem State.consumed_fault (s : State) (i : Instr) : (s.consumed i).fault = s.fault := rfl
@[simp] theorem State.consumed_cmd (s : State) (i : Instr) : (s.consumed i).cmd = s.cmd.drop i.words := rfl
@[simp] theorem State.consumed_din (s : State) (i : Instr) : (s.consumed i).din = s.din.drop (dinCount i) := rfl
@[simp] theorem State.consumed_dout (s : State) (i : Instr) : (s.consumed i).dout = s.dout := rfl

/-- A command whose check fails takes the fault. -/
theorem perform_of_check {i : Instr} {e : Bytes → State → State} {s : State} {c : FaultCode}
    (h : s.check i = some c) : perform i e s = .next (s.enterFault c i.words) := by
  simp [perform, h]

/-- A command that is short of DIN bytes waits. -/
theorem perform_of_short {i : Instr} {e : Bytes → State → State} {s : State}
    (h : s.check i = none) (hd : s.din.length < dinCount i) : perform i e s = .next s := by
  simp [perform, h, State.dinRead_eq_none.2 hd]

/-- A ready command has its effect. -/
theorem perform_of_ready {i : Instr} {e : Bytes → State → State} {s : State} (h : s.Ready i) :
    perform i e s = .next (e (s.din.take (dinCount i)) (s.consumed i)) := by
  simp [perform, h.1, State.dinRead_of_le h.2, State.consumed, State.takeCmd]

/-- Everything a command can do: take a fault, wait, or have its effect. -/
theorem perform_cases {i : Instr} {e : Bytes → State → State} {s t : State}
    (h : perform i e s = .next t) :
    (∃ c, s.check i = some c ∧ t = s.enterFault c i.words) ∨
    (s.check i = none ∧ s.din.length < dinCount i ∧ t = s) ∨
    (s.Ready i ∧ t = e (s.din.take (dinCount i)) (s.consumed i)) := by
  cases hc : s.check i with
  | some c =>
    rw [perform_of_check hc] at h
    exact .inl ⟨c, rfl, by injection h with h; exact h.symm⟩
  | none =>
    by_cases hd : s.din.length < dinCount i
    · rw [perform_of_short hc hd] at h
      exact .inr (.inl ⟨rfl, hd, by injection h with h; exact h.symm⟩)
    · have hr : s.Ready i := ⟨hc, Nat.le_of_not_lt hd⟩
      rw [perform_of_ready hr] at h
      exact .inr (.inr ⟨hr, by injection h with h; exact h.symm⟩)

/-- The effect each meaning gives to `perform`. -/
def effectOf : Instr → Bytes → State → State
  | .initHash k => fun _ t => t.onSlot k fun _ => Context.construct .hash
  | .initKeyed k kl il cl => fun x t => t.onSlot k fun _ => Context.keyedFrom x kl il cl
  | .absorb k _ => fun x t => t.onSlot k fun c => c.absorbAny x c.mode.absorbRate .absorb
  | .squeeze k n => fun _ t => t.onSlotOut k fun c => c.squeezeAny n .squeeze
  | .encrypt k _ => fun x t => t.onSlotOut k fun c => c.crypt x false
  | .decrypt k _ => fun x t => t.onSlotOut k fun c => c.crypt x true
  | .squeezeKey k n => fun _ t => t.onSlotOut k fun c => c.squeezeAny n .squeezeKey
  | .ratchet k => fun _ t => t.onSlot k Context.ratchet
  | .clone d r => fun _ t => t.onSlot d fun c => t.slots.getD r c
  | .pload => fun x t => { t with p := Block.ofBytes x }
  | .pperm n => fun _ t => { t with p := permuteTimes n t.p }
  | .pread => fun _ t => t.doutWrite t.p.toList

/-- Every meaning is `perform` with its effect. -/
theorem exec_eq_perform (i : Instr) (s : State) : exec i s = perform i (effectOf i) s := by
  cases i <;> rfl

/-- A ready command has its effect. -/
theorem exec_of_ready {i : Instr} {s : State} (h : s.Ready i) :
    exec i s = .next (effectOf i (s.din.take (dinCount i)) (s.consumed i)) := by
  rw [exec_eq_perform, perform_of_ready h]

/-- Everything `exec` can do. -/
theorem exec_cases {i : Instr} {s t : State} (h : exec i s = .next t) :
    (∃ c, s.check i = some c ∧ t = s.enterFault c i.words) ∨
    (s.check i = none ∧ s.din.length < dinCount i ∧ t = s) ∨
    (s.Ready i ∧ t = effectOf i (s.din.take (dinCount i)) (s.consumed i)) :=
  perform_cases (exec_eq_perform i s ▸ h)

/-- Everything `step` can do: it stops in a faulted state, runs the decoded command, or deals with words that are
no whole command. -/
theorem step_cases (s : State) :
    (∃ c, s.fault = some c ∧ step s = .fault (.stopped c)) ∨
    (∃ i rest, s.fault = none ∧ decode s.cmd = .command i rest ∧ step s = exec i s) ∨
    (s.fault = none ∧ (∀ i rest, decode s.cmd ≠ .command i rest) ∧
      step s = .next (s.incomplete (decode s.cmd))) := by
  unfold step
  cases hf : s.fault with
  | some c => exact .inl ⟨c, rfl, rfl⟩
  | none =>
    cases hd : decode s.cmd with
    | command i rest => exact .inr (.inl ⟨i, rest, rfl, rfl, rfl⟩)
    | empty => exact .inr (.inr ⟨rfl, by simp, rfl⟩)
    | illegal => exact .inr (.inr ⟨rfl, by simp, rfl⟩)
    | waiting h => exact .inr (.inr ⟨rfl, by simp, rfl⟩)

/-- Words that are no whole command change CMD and the fault only. -/
theorem State.incomplete_frame (s : State) (d : Decoded) :
    (s.incomplete d).slots = s.slots ∧ (s.incomplete d).p = s.p ∧ (s.incomplete d).din = s.din
      ∧ (s.incomplete d).dout = s.dout := by
  cases d with
  | waiting h =>
    simp only [State.incomplete]
    split <;> exact ⟨rfl, rfl, rfl, rfl⟩
  | empty => exact ⟨rfl, rfl, rfl, rfl⟩
  | illegal => exact ⟨rfl, rfl, rfl, rfl⟩
  | command i rest => exact ⟨rfl, rfl, rfl, rfl⟩

/-- The slot fields of a command pass the check exactly when all of them name slots. -/
theorem State.checkSlots_eq_none {s : State} {ks : List Nat} :
    s.checkSlots ks = none ↔ ∀ k ∈ ks, k < s.slots.length := by
  simp [State.checkSlots]

/-- A command that passes its checks names slots that exist. -/
theorem State.check_slots {s : State} {i : Instr} (h : s.check i = none) :
    ∀ k ∈ i.slotFields, k < s.slots.length := by
  cases i <;>
    simp_all [State.check, Instr.slotFields, State.checkSlots]

end Sys2Proof.Machine
end

