-- ==== Sys2Proof/Laws/PerInstr.lean ====
section
/-! SUPPORT. Statements about the instructions as syntax, made constructor by constructor. -/

namespace Sys2Proof.Laws

open Sys2Proof

/-- spec/30_encoding.md R97: a command's encoding has as many words as its row alone says. -/
def WordCount.Statement (i : Instr) : Prop := (encode i).length = i.words

theorem WordCount.initHash (ctx : Nat) : WordCount.Statement (.initHash ctx) := rfl
theorem WordCount.initKeyed (ctx klen idlen clen : Nat) :
    WordCount.Statement (.initKeyed ctx klen idlen clen) := rfl
theorem WordCount.absorb (ctx len : Nat) : WordCount.Statement (.absorb ctx len) := rfl
theorem WordCount.squeeze (ctx len : Nat) : WordCount.Statement (.squeeze ctx len) := rfl
theorem WordCount.encrypt (ctx len : Nat) : WordCount.Statement (.encrypt ctx len) := rfl
theorem WordCount.decrypt (ctx len : Nat) : WordCount.Statement (.decrypt ctx len) := rfl
theorem WordCount.squeezeKey (ctx len : Nat) : WordCount.Statement (.squeezeKey ctx len) := rfl
theorem WordCount.ratchet (ctx : Nat) : WordCount.Statement (.ratchet ctx) := rfl
theorem WordCount.clone (dst src : Nat) : WordCount.Statement (.clone dst src) := rfl
theorem WordCount.pload : WordCount.Statement .pload := rfl
theorem WordCount.pperm (count : Nat) : WordCount.Statement (.pperm count) := rfl
theorem WordCount.pread : WordCount.Statement .pread := rfl

end Sys2Proof.Laws
end

