-- ==== Sys2Proof/Laws/Permutation.lean ====
section
/-! SUPPORT. The small lemmas of the word view and the round: bytes of a word, lanes of a plane, bits of a
rotation. -/

namespace Sys2Proof.Machine

open Sys2Proof

/-- The bytes of `LE32`. -/
theorem le32_extract (b0 b1 b2 b3 : Byte) :
    (le32 b0 b1 b2 b3).extractLsb' 0 8 = b0 ∧ (le32 b0 b1 b2 b3).extractLsb' 8 8 = b1 ∧
    (le32 b0 b1 b2 b3).extractLsb' 16 8 = b2 ∧ (le32 b0 b1 b2 b3).extractLsb' 24 8 = b3 := by
  unfold le32
  refine ⟨?_, ?_, ?_, ?_⟩ <;> ext i hi <;> simp only [BitVec.getElem_extractLsb', BitVec.getLsbD_append]
  · simp [hi]
  · simp [show ¬ (8 + i < 8) by omega, show 8 + i - 8 = i by omega, hi, BitVec.getLsbD_eq_getElem hi]
  · simp [show ¬ (16 + i < 8) by omega, show ¬ (16 + i - 8 < 8) by omega, show 16 + i - 8 - 8 = i by omega, hi,
      BitVec.getLsbD_eq_getElem hi]
  · simp [show ¬ (24 + i < 8) by omega, show ¬ (24 + i - 8 < 8) by omega, show ¬ (24 + i - 8 - 8 < 8) by omega,
      show 24 + i - 8 - 8 - 8 = i by omega, hi, BitVec.getLsbD_eq_getElem hi]

/-- A word is `LE32` of its bytes. -/
theorem le32_of_extract (w : Word) :
    le32 (w.extractLsb' 0 8) (w.extractLsb' 8 8) (w.extractLsb' 16 8) (w.extractLsb' 24 8) = w := by
  unfold le32
  ext i hi
  simp only [BitVec.getElem_append, BitVec.getElem_extractLsb']
  split
  · simp [BitVec.getLsbD_eq_getElem hi]
  split
  · rw [show 8 + (i - 8) = i by omega, BitVec.getLsbD_eq_getElem hi]
  split
  · rw [show 16 + (i - 8 - 8) = i by omega, BitVec.getLsbD_eq_getElem hi]
  · rw [show 24 + (i - 8 - 8 - 8) = i by omega, BitVec.getLsbD_eq_getElem hi]

/-- The words of the word view of a state. -/
theorem Block.planes_word (s : Block) (j : Nat) (hj : j < 12) : s.planes.word j = s.word ⟨j, hj⟩ := by
  interval_cases j <;> rfl

/-- Byte `i` of the state that a word view writes back. -/
theorem Planes.bytes_get (w : Planes) (i : Nat) (hi : i < 48) :
    w.bytes[i] = (w.word (i / 4)).extractLsb' (8 * (i % 4)) 8 := by
  simp [Planes.bytes]

/-- Bit `i` of a rotated word. -/
theorem rotl_get (x : Word) (n i : Nat) (hn : n < 32) (hi : i < 32) :
    (rotl x n).getLsbD i = x.getLsbD ((i + (32 - n)) % 32) := by
  unfold rotl
  simp only [BitVec.getLsbD_or, BitVec.getLsbD_shiftLeft, BitVec.getLsbD_ushiftRight]
  by_cases h : i < n
  · rw [Nat.mod_eq_of_lt (by omega)]; simp [h, Nat.add_comm]
  · rw [show i + (32 - n) = (i - n) + 32 by omega, Nat.add_mod_right, Nat.mod_eq_of_lt (by omega)]
    rw [BitVec.getLsbD_of_ge x (32 - n + i) (by omega)]
    simp [h, hi]

/-- Rotation loses no bit. -/
theorem rotl_inj {x y : Word} {n : Nat} (hn : n < 32) (h : rotl x n = rotl y n) : x = y := by
  apply BitVec.eq_of_getLsbD_eq
  intro i hi
  have e := congrArg (fun w => BitVec.getLsbD w ((i + n) % 32)) h
  rw [rotl_get _ _ _ hn (Nat.mod_lt _ (by decide)), rotl_get _ _ _ hn (Nat.mod_lt _ (by decide))] at e
  rwa [show ((i + n) % 32 + (32 - n)) % 32 = i by omega] at e

/-- Planes with equal lanes are equal. -/
theorem Plane.ext_get {a b : Plane} (h : ∀ i, a.get i = b.get i) : a = b := by
  obtain ⟨a0, a1, a2, a3⟩ := a
  obtain ⟨b0, b1, b2, b3⟩ := b
  have h0 := h 0; have h1 := h 1; have h2 := h 2; have h3 := h 3
  simp only [Plane.get] at *
  simp [h0, h1, h2, h3]

@[simp] theorem Plane.get_ofFn (f : Fin 4 → Word) (i : Fin 4) : (Plane.ofFn f).get i = f i := by
  fin_cases i <;> rfl

end Sys2Proof.Machine
end

