-- ==== Sys2Proof/Laws/Streaming.lean ====
section
/-! SUPPORT. What the finer machine's pieces of work mean at the command level, said once: each loop's piece
  is
its first chunk and the piece that is left. -/

namespace Sys2Proof.Machine

open Sys2Proof

/-- A change of a slot with output, as a change and a write. -/
theorem State.onSlotOut_eq (s : State) (k : Nat) (f : Context → Bytes × Context) :
    s.onSlotOut k f = (s.onSlot k fun c => (f c).2).doutWrite (s.peek k fun c => (f c).1) := by
  unfold State.onSlotOut State.peek
  cases h : s.slots[k]? with
  | none =>
    simp only
    have : (s.onSlot k fun c => (f c).2) = s := by
      rw [State.onSlot_congr (g := fun c => c) (by intro c hc; rw [h] at hc; cases hc), State.onSlot_id]
    rw [this]; simp [State.doutWrite]
  | some c =>
    simp only
    rw [State.onSlot_congr (g := fun c => (f c).2) (by intro c' hc; rw [h] at hc; cases hc; rfl)]

theorem State.peek_onSlot (s : State) (k : Nat) (f : Context → Context) (g : Context → Bytes) :
    (s.onSlot k f).peek k g = s.peek k fun c => g (f c) := by
  unfold State.peek; rw [State.onSlot_get, if_pos rfl]; cases s.slots[k]? <;> rfl

theorem State.peek_congr {s : State} {k : Nat} {f g : Context → Bytes}
    (h : ∀ c, s.slots[k]? = some c → f c = g c) : s.peek k f = s.peek k g := by
  unfold State.peek; cases hc : s.slots[k]? with
  | none => rfl
  | some c => exact h c hc

theorem State.peek_append (s : State) (k : Nat) (f g : Context → Bytes) : s.peek k f ++ s.peek k g = s.peek
    k fun c => f c ++ g c := by
  unfold State.peek; cases s.slots[k]? <;> rfl

theorem State.onSlot_doutWrite (s : State) (k : Nat) (f : Context → Context) (y : Bytes) :
    (s.doutWrite y).onSlot k f = (s.onSlot k f).doutWrite y := rfl

theorem State.peek_doutWrite (s : State) (k : Nat) (f : Context → Bytes) (y : Bytes) : (s.doutWrite y).peek
    k f = s.peek k f := rfl

/-- Changes of one slot compose. -/
theorem State.onSlotOut_onSlot (s : State) (k : Nat) (f : Context → Context) (g : Context → Bytes × Context) :
    (s.onSlot k f).onSlotOut k g = s.onSlotOut k fun c => g (f c) := by
  rw [State.onSlotOut_eq, State.onSlotOut_eq, State.onSlot_onSlot, State.peek_onSlot]

theorem State.onSlotOut_onSlotOut (s : State) (k : Nat) (f g : Context → Bytes × Context) :
    (s.onSlotOut k f).onSlotOut k g = s.onSlotOut k fun c => ((f c).1 ++ (g (f c).2).1, (g (f c).2).2) := by
  rw [State.onSlotOut_eq (s.onSlotOut k f), State.onSlotOut_eq s, State.onSlotOut_eq s,
    State.onSlot_doutWrite, State.peek_doutWrite, State.onSlot_onSlot, State.peek_onSlot,
    State.doutWrite_doutWrite, State.peek_append]

theorem State.onSlot_onSlotOut (s : State) (k : Nat) (f : Context → Bytes × Context) (g : Context → Context) :
    (s.onSlotOut k f).onSlot k g = s.onSlotOut k fun c => ((f c).1, g (f c).2) := by
  rw [State.onSlotOut_eq s, State.onSlotOut_eq s, State.onSlot_doutWrite, State.onSlot_onSlot]

theorem State.onSlotOut_congr {s : State} {k : Nat} {f g : Context → Bytes × Context}
    (h : ∀ c, s.slots[k]? = some c → f c = g c) : s.onSlotOut k f = s.onSlotOut k g := by
  rw [State.onSlotOut_eq, State.onSlotOut_eq, State.onSlot_congr (fun c hc => by rw [h c hc]),
    State.peek_congr (fun c hc => by rw [h c hc])]

/-- The context of a slot that exists. -/
theorem State.contextAt_of_slot {s : State} {k : Nat} {c : Context} (h : s.slots[k]? = some c) : s.contextAt
    k = c := by
  simp [State.contextAt, List.getD, h]

/-- DinRead reads neither slots nor DOUT. -/
theorem State.dinRead_onSlotOut (s : State) (k n : Nat) (f : Context → Bytes × Context) :
    (s.onSlotOut k f).dinRead n = (s.dinRead n).map fun r => (r.1, r.2.onSlotOut k f) := by
  unfold State.dinRead; simp only [State.onSlotOut_din]; split
  · simp only [Option.map_some]; rw [State.onSlotOut_eq, State.onSlotOut_eq]; rfl
  · rfl

/-- `up` is the flag and then the twelve rounds of the engine. -/
theorem Context.up_eq_finishRounds (c : Context) (f : Machine.Flag) :
    ({ c.upFlag f with s := (c.upFlag f).s.finishRounds 0, phase := .up } : Context) = c.up f := rfl

/-! What a piece of work means at the command level. -/

/-- The remaining work is its first piece and then the rest. -/
theorem finishAll_cons (k : Nat) (t : Todo) (ts : List Todo) (sc : Bytes) (s : State) :
    finishAll k (t :: ts) sc s = (t.finish k sc s).bind fun r => finishAll k ts r.1 r.2 := by
  simp only [finishAll]; cases t.finish k sc s <;> rfl

/-- An absorption that begins in PHASE Down begins with `up(Zero)`. -/
theorem finishAll_absorb_of_down {k left rate : Nat} {tail : Bytes} {f : Machine.Flag} {ts : List Todo}
    {sc : Bytes} {s : State} (hr : 0 < rate)
  (h : (s.contextAt k).phase = .down) :
    finishAll k (.absorb left tail rate f :: ts) sc s = finishAll k (.absorb left tail rate f :: ts) sc
    (s.onSlot k fun c => c.up .zero) := by
  rw [finishAll_cons, finishAll_cons]
  congr 1
  simp only [Todo.finish, State.dinRead_onSlot, Option.map_map]
  cases hd : s.dinRead left with
  | none => rfl
  | some r =>
    simp only [Option.map_some, Function.comp, Option.some.injEq, Prod.mk.injEq, true_and,
      State.onSlot_onSlot]
    obtain ⟨x, s'⟩ := r
    obtain ⟨_, _, rfl⟩ := State.dinRead_eq_some.1 hd
    apply State.onSlot_congr
    intro c hc
    have : s.contextAt k = c := State.contextAt_of_slot hc
    rw [this] at h
    rw [← Context.absorbAny_ensureUp hr, Context.ensureUp_of_down h]

/-- An absorption in PHASE Up is one chunk, and the rest with flag Zero. -/
theorem finishAll_absorb_of_up {k left rate : Nat} {tail : Bytes} {f : Machine.Flag} {ts : List Todo}
    {sc : Bytes} {s s' : State} {x : Bytes} (hr : 0 < rate)
  (h : (s.contextAt k).phase = .up) (hd : s.dinRead (min left rate) = some (x, s')) :
    finishAll k (.absorb left tail rate f :: ts) sc s = finishAll k
    (if left - min left rate = 0 ∧ tail.length - min tail.length (rate - min left rate) = 0 then ts
              else .absorb (left - min left rate) (tail.drop (min tail.length (rate - min left rate))) rate
                .zero :: ts) sc
    (s'.onSlot k fun c => c.down (x ++ tail.take (min tail.length (rate - min left rate))) f) := by
  obtain ⟨hl, hx, hs⟩ := State.dinRead_eq_some.1 hd
  have hxl : x.length = min left rate := by rw [hx, List.length_take]; omega
  have hph : ∀ c, s'.slots[k]? = some c → c.phase = .up := by
    intro c hc; rw [hs] at hc; rw [← State.contextAt_of_slot (s := s) (k := k) hc]; exact h
  have e : left = min left rate + (left - min left rate) := by omega
  rw [finishAll_cons]
  simp only [Todo.finish]
  conv => lhs; rw [e, State.dinRead_add, hd]
  simp only [Option.bind_some, Option.map_map]
  split
  · rename_i h0
    rw [h0.1, State.dinRead_of_le (Nat.zero_le _)]
    simp only [List.take_zero, List.drop_zero, Option.map_some, Function.comp, List.append_nil,
      Option.bind_some]
    refine congrArg (finishAll k ts sc) (State.onSlot_congr ?_)
    intro c hc
    rw [Context.absorbAny_of_le hr (by simp; omega), Context.ensureUp_of_up (hph c hc), Nat.min_eq_left
      (by omega), List.take_length]
  · rename_i h0
    rw [finishAll_cons]
    simp only [Todo.finish, State.dinRead_onSlot, Option.map_map]
    cases hq : s'.dinRead (left - min left rate) with
    | none => rfl
    | some q =>
      obtain ⟨y, s2⟩ := q
      obtain ⟨hl2, hy, hs2⟩ := State.dinRead_eq_some.1 hq
      have hyl : y.length = left - min left rate := by rw [hy, List.length_take]; omega
      simp only [Option.map_some, Function.comp, Option.bind_some, State.onSlot_onSlot]
      refine congrArg (finishAll k ts sc) (State.onSlot_congr ?_)
      intro c hc
      have hc' : s'.slots[k]? = some c := by rw [hs2] at hc; exact hc
      have hlen : rate < (x ++ y ++ tail).length := by simp; omega
      rw [Context.absorbAny_of_gt hr hlen, Context.ensureUp_of_up (hph c hc')]
      by_cases hlr : left ≤ rate
      · have : y = [] := by apply List.length_eq_zero_iff.1; omega
        subst this
        have e1 : min left rate = left := by omega
        rw [e1] at hxl ⊢
        have e2 : min tail.length (rate - left) = rate - left := by simp at hlen; omega
        rw [e2]
        simp only [List.append_nil, List.nil_append]
        rw [List.take_append, List.drop_append, hxl, List.take_of_length_le (by omega),
          List.drop_of_length_le (by omega), List.nil_append]
      · have e1 : min left rate = rate := by omega
        rw [e1] at hxl ⊢
        rw [Nat.sub_self, Nat.min_zero, List.take_zero, List.drop_zero, List.append_nil, List.append_assoc,
          List.take_append, List.drop_append, hxl, List.take_of_length_le (by omega), List.drop_of_length_le
            (by omega), Nat.sub_self]
        simp

theorem Block.first_zero (s : Block) : s.first 0 = [] := rfl

/-- A squeeze is `up`, one chunk out, and, if bytes remain, `down(ε, Zero)` and the rest with flag Zero. -/
theorem finishAll_squeeze {k left : Nat} {f : Machine.Flag} {ts : List Todo} {sc : Bytes} {s : State} :
    finishAll k (.squeeze left f :: ts) sc s =
    finishAll k
     (.emit (min left (s.contextAt k).mode.squeezeRate) :: if left - min left
     (s.contextAt k).mode.squeezeRate = 0 then ts else .pad :: .squeeze
     (left - min left (s.contextAt k).mode.squeezeRate) .zero :: ts) sc
    (s.onSlot k fun c => c.up f) := by
  rw [finishAll_cons, finishAll_cons]
  simp only [Todo.finish, Option.bind_some, State.onSlotOut_onSlot]
  split
  · rename_i h
    refine congrArg (finishAll k ts sc) (State.onSlotOut_congr ?_)
    intro c hc
    rw [State.contextAt_of_slot hc] at h ⊢
    rw [Context.squeezeAny_of_le (by omega), Nat.min_eq_left (by omega)]
  · rename_i h
    rw [finishAll_cons]
    simp only [Todo.finish, Option.bind_some, State.onSlot_onSlotOut]
    rw [finishAll_cons]
    simp only [Todo.finish, Option.bind_some, State.onSlotOut_onSlotOut]
    refine congrArg (finishAll k ts sc) (State.onSlotOut_congr ?_)
    intro c hc
    rw [State.contextAt_of_slot hc] at h ⊢
    rw [Context.squeezeAny_of_gt (by omega), Nat.min_eq_right (by omega)]

/-- crypt is `up`, one chunk, and, if bytes remain, the rest with flag Zero. -/
theorem finishAll_crypt {k left : Nat} {d : Bool} {f : Machine.Flag} {ts : List Todo} {sc : Bytes}
    {s : State} :
    finishAll k (.crypt left d f :: ts) sc s =
    finishAll k
     (.cryptChunk (min left cryptRate) d :: if left - min left cryptRate = 0 then ts else .crypt
     (left - min left cryptRate) d .zero :: ts) sc
    (s.onSlot k fun c => c.up f) := by
  have hr : 0 < cryptRate := by decide
  rw [finishAll_cons, finishAll_cons]
  simp only [Todo.finish, State.dinRead_onSlot, Option.map_map]
  conv => lhs; rw [show left = min left cryptRate + (left - min left cryptRate) by omega, State.dinRead_add]
  cases hd : s.dinRead (min left cryptRate) with
  | none => rfl
  | some r =>
    obtain ⟨x, s'⟩ := r
    obtain ⟨hl, hx, hs⟩ := State.dinRead_eq_some.1 hd
    have hxl : x.length = min left cryptRate := by rw [hx, List.length_take]; omega
    simp only [Option.bind_some, Option.map_some, Option.map_map]
    split
    · rename_i h0
      rw [h0, State.dinRead_of_le (Nat.zero_le _)]
      simp only [List.take_zero, List.drop_zero, Option.map_some, Function.comp, List.append_nil,
        Option.bind_some, State.onSlotOut_onSlot]
      refine congrArg (finishAll k ts sc) (State.onSlotOut_congr ?_)
      intro c hc
      rw [Context.cryptChunks_of_le (by omega)]
    · rename_i h0
      rw [finishAll_cons]
      simp only [Todo.finish, Function.comp, State.onSlotOut_onSlot, State.dinRead_onSlotOut,
        Option.map_map]
      cases hq : s'.dinRead (left - min left cryptRate) with
      | none => rfl
      | some q =>
        obtain ⟨y, s2⟩ := q
        obtain ⟨hl2, hy, hs2⟩ := State.dinRead_eq_some.1 hq
        have hyl : y.length = left - min left cryptRate := by rw [hy, List.length_take]; omega
        simp only [Option.map_some, Function.comp, Option.bind_some, State.onSlotOut_onSlotOut]
        refine congrArg (finishAll k ts sc) (State.onSlotOut_congr ?_)
        intro c hc
        have e1 : x.length = cryptRate := by omega
        rw [Context.cryptChunks_of_gt (by simp; omega), List.take_left' e1, List.drop_left' e1]

end Sys2Proof.Machine
end

