-- ==== Sys2Proof/Tests/Slice0.lean ====
section
/-! SUPPORT. The model's own tests, and for each statement with hypotheses a witness that meets them. Expected
values come from spec/95_test_vectors.md (V-… names) and from the encodings of spec/30_encoding.md. -/

namespace Sys2Proof.Tests

open Sys2Proof Sys2Proof.Machine

set_option Elab.async false

/-! Helpers. -/

/-- The reset state with words in CMD and bytes in DIN. -/
def st (cmd : List Word) (din : Bytes) : State := State.reset.load cmd din

/-- `00 01 …`, `n` bytes. -/
def count (n : Nat) : Bytes := (List.range n).map (BitVec.ofNat 8)

/-- The bytes a hexadecimal text writes (30_encoding.md R99). -/
def hex (s : String) : Bytes := (hexBytes s.toList).getD []

/-- The object after K16 init, V-K1, as the vector lists its bytes. -/
def k1 : Context :=
  { s := Block.ofBytes (count 16 ++ [0x00, 0x01] ++ List.replicate 29 0 ++ [0x02]), phase := .down, mode := .keyed }

/-- The reset state with V-K1 in slot 0. -/
def keyed (cmd : List Word) (din : Bytes) : State := { st cmd din with slots := (st cmd din).slots.set 0 k1 }

/-- The outcome is a next state with a property. -/
def leads (o : Host.Outcome State Fault Refusal) (p : State → Bool) : Bool :=
  match o with
  | .next t => p t
  | .fault _ => false
  | .refused _ => false

/-- Slot `k` after a step: its bytes, PHASE and MODE. -/
def slotIs (t : State) (k : Nat) (s : Bytes) (ph : Phase) (m : Mode) : Bool :=
  t.slots[k]? == some { s := Block.ofBytes s, phase := ph, mode := m }

/-! WellFormed: slot fields are 4 bits, length words 32 bits. -/

theorem test_wf_initHash_slot16_refused : (Instr.initHash 16).wf = false := by decide
theorem test_wf_initKeyed_slot16_refused : (Instr.initKeyed 16 1 0 0).wf = false := by decide
theorem test_wf_initKeyed_klen_refused : (Instr.initKeyed 0 4294967296 0 0).wf = false := by decide
theorem test_wf_initKeyed_idlen_refused : (Instr.initKeyed 0 1 4294967296 0).wf = false := by decide
theorem test_wf_initKeyed_clen_refused : (Instr.initKeyed 0 1 0 4294967296).wf = false := by decide
theorem test_wf_absorb_slot16_refused : (Instr.absorb 16 0).wf = false := by decide
theorem test_wf_absorb_len_refused : (Instr.absorb 0 4294967296).wf = false := by decide
theorem test_wf_squeeze_slot16_refused : (Instr.squeeze 16 1).wf = false := by decide
theorem test_wf_squeeze_len_refused : (Instr.squeeze 0 4294967296).wf = false := by decide
theorem test_wf_encrypt_slot16_refused : (Instr.encrypt 16 0).wf = false := by decide
theorem test_wf_encrypt_len_refused : (Instr.encrypt 0 4294967296).wf = false := by decide
theorem test_wf_decrypt_slot16_refused : (Instr.decrypt 16 0).wf = false := by decide
theorem test_wf_decrypt_len_refused : (Instr.decrypt 0 4294967296).wf = false := by decide
theorem test_wf_squeezeKey_slot16_refused : (Instr.squeezeKey 16 1).wf = false := by decide
theorem test_wf_squeezeKey_len_refused : (Instr.squeezeKey 0 4294967296).wf = false := by decide
theorem test_wf_ratchet_slot16_refused : (Instr.ratchet 16).wf = false := by decide
theorem test_wf_clone_dst16_refused : (Instr.clone 16 0).wf = false := by decide
theorem test_wf_clone_src16_refused : (Instr.clone 0 16).wf = false := by decide
theorem test_wf_pperm_count_refused : (Instr.pperm 4294967296).wf = false := by decide
theorem test_wf_boundaries_accepted :
    (Instr.initKeyed 15 4294967295 4294967295 4294967295).wf = true ∧ (Instr.clone 15 15).wf = true := by decide

/-! Decode: each row's words, written as RSV, CTX2, CTX, OPC (30_encoding.md R91, R93). -/

theorem test_decode_initHash :
    decode [0b0000000000000000_0000_1010_00000001] = .command (.initHash 10) [] := by decide
theorem test_decode_initKeyed :
    decode [0b0000000000000000_0000_0001_00000010, 16, 4, 2] = .command (.initKeyed 1 16 4 2) [] := by decide
theorem test_decode_absorb :
    decode [0b0000000000000000_0000_0011_00000011, 33] = .command (.absorb 3 33) [] := by decide
theorem test_decode_squeeze :
    decode [0b0000000000000000_0000_1111_00000100, 0xFFFFFFFF] = .command (.squeeze 15 4294967295) [] := by decide
theorem test_decode_encrypt :
    decode [0b0000000000000000_0000_0000_00000101, 5] = .command (.encrypt 0 5) [] := by decide
theorem test_decode_decrypt :
    decode [0b0000000000000000_0000_0010_00000110, 0x80000000] = .command (.decrypt 2 2147483648) [] := by decide
theorem test_decode_squeezeKey :
    decode [0b0000000000000000_0000_0100_00000111, 25] = .command (.squeezeKey 4 25) [] := by decide
theorem test_decode_ratchet :
    decode [0b0000000000000000_0000_0001_00001000] = .command (.ratchet 1) [] := by decide
theorem test_decode_clone :
    decode [0b0000000000000000_0010_0011_00001001] = .command (.clone 3 2) [] := by decide
theorem test_decode_pload : decode [0b0000000000000000_0000_0000_00010000] = .command .pload [] := by decide
theorem test_decode_pperm :
    decode [0b0000000000000000_0000_0000_00010001, 384, 7] = .command (.pperm 384) [7] := by decide
theorem test_decode_pread : decode [0b0000000000000000_0000_0000_00010010] = .command .pread [] := by decide
theorem test_decode_ctx2_on_ratchet_illegal : decode [0b0000000000000000_0001_0000_00001000] = .illegal := by decide
theorem test_decode_short_waits :
    decode [0x00000102, 16, 4] = .waiting { row := .initKeyed, ctx := 1, ctx2 := 0 } := by decide
theorem test_decode_nothing : decode [] = .empty := by decide

/-- The words of V-E2 as one number: the header lowest. -/
theorem test_decodeTableWord_initKeyed :
    decodeTableWord 128 0x00000002_00000004_00000010_00000102 = some (.initKeyed 1 16 4 2) := by decide
/-- Length words are 0 where the row gives only the header's bits. -/
theorem test_decodeTableWord_header_only : decodeTableWord 32 0x00000303 = some (.absorb 3 0) := by decide
theorem test_decodeTableWord_illegal : decodeTableWord 32 0x0000000A = none := by decide

/-- The word placed by `withFetchWord` is the one the next step runs. -/
theorem test_withFetchWord_ratchet_faults_on_hash_slot :
    leads (step (State.reset.withFetchWord 32 0x00000108)) (·.fault == some .mode) = true := by decide
theorem test_withFetchWord_pload_is_fed :
    leads (step (State.reset.withFetchWord 32 0x00000010)) (fun t => t.cmd == [] && t.din == []) = true := by decide

/-! The permutation: V-P4, V-P8, V-P9 and L1-3. -/

theorem test_permute_count :
    (permute (Block.ofBytes (count 48))).toList
      = hex "7633aeb55dccbf60d4a6dfd7506d06bfb2ac97ae970d8ad31385117bb775a741b3b1540bb53be96f3b2b8fafa676a3b6" := by
  decide +kernel
theorem test_round0_V_P8 :
    roundAt 0 ⟨⟨1, 0, 0, 0⟩, ⟨0, 0, 0, 0⟩, ⟨0, 0, 0, 0⟩⟩
      = ⟨⟨0x59, 0x02014020, 0, 0⟩, ⟨0xb2, 0x8040, 0x8040, 0⟩, ⟨0x00402000, 0, 0, 0x01000002⟩⟩ := by decide +kernel
theorem test_round5_V_P9 :
    roundAt 5 ⟨⟨0, 0, 0, 0⟩, ⟨0, 0x80000000, 0, 0⟩, ⟨0, 0, 1, 0⟩⟩
      = ⟨⟨0x14, 0, 0x0100a810, 0x02014020⟩, ⟨0x8068, 0, 0x4021, 0xc060⟩,
         ⟨0x00880081, 0x01201002, 0x00402000, 0⟩⟩ := by decide +kernel
theorem test_rhoEast_L1_3 :
    (rhoEast ⟨⟨0, 0, 0, 0⟩, ⟨0, 0, 0, 0⟩, ⟨0x03020100, 0x07060504, 0x0b0a0908, 0x0f0e0d0c⟩⟩).c
      = ⟨0x0a09080b, 0x0e0d0c0f, 0x02010003, 0x06050407⟩ := by decide +kernel

/-! The primitives: V-D3, V-D4, V-D6, V-D8, V-D9. -/

theorem test_down_V_D3 :
    (Context.construct .keyed).down [] .absorb
      = { s := Block.ofBytes (0x01 :: (List.replicate 46 0 ++ [0x03])), phase := .down, mode := .keyed } := by
  decide +kernel
theorem test_down_V_D4 :
    (Context.construct .keyed).down (List.replicate 44 0) .crypt
      = { s := Block.ofBytes (List.replicate 44 0 ++ [0x01, 0, 0, 0x80]), phase := .down, mode := .keyed } := by
  decide +kernel
theorem test_up_V_D6 :
    ((Context.construct .keyed).up .squeeze).s.toList
      = hex "0f0052caa72284ca85cd2d6fcad4e8854349ae22fbe2b4d34858b71ed6d9fc066adbae7fba90f9bc4b49e86b23c1dcc2" := by
  decide +kernel
theorem test_split_V_D8_V_D9 :
    split (count 33) 16 = [count 16, (count 33).drop 16 |>.take 16, [32]] ∧ (split (count 48) 24).length = 2 := by
  decide +kernel

/-! One step per command. -/

/-- V-H17: INIT_HASH over a Keyed object. -/
theorem test_initHash_discards_keyed :
    leads (step (keyed [0x00000001] [])) (fun t => slotIs t 0 [] .up .hash && t.cmd == []) = true := by decide +kernel
/-- V-K5: key, id, id length 4, pad, AbsorbKey. -/
theorem test_initKeyed_V_K5 :
    leads (step (st [0x00000002, 16, 4, 0] (count 16 ++ [0xa0, 0xa1, 0xa2, 0xa3])))
      (fun t => slotIs t 0 (count 16 ++ [0xa0, 0xa1, 0xa2, 0xa3, 0x04, 0x01] ++ List.replicate 25 0 ++ [0x02])
        .down .keyed) = true := by decide +kernel
/-- V-K6: two counter bytes, one chunk each. -/
theorem test_initKeyed_V_K6_counter :
    leads (step (st [0x00000002, 16, 0, 2] (count 16 ++ [1, 2])))
      (fun t => slotIs t 0
        (hex "e5aeb653b6b4230b4d7c7638ac8403a8ed36ae44d9a2de1c242e8100a6ff102762d0cf4a9a29e606505db8990aad223c")
        .down .keyed) = true := by decide +kernel
/-- V-H12: the pad of a full block stands at index 16. -/
theorem test_absorb_V_H12_full_block :
    leads (step (st [0x00000003, 16] (count 16)))
      (fun t => slotIs t 0 (count 16 ++ [0x01] ++ List.replicate 30 0 ++ [0x01]) .down .hash) = true := by
  decide +kernel
/-- V-K22: an empty absorb on a slot that is Down. -/
theorem test_absorb_V_K22_empty_on_down :
    leads (step (keyed [0x00000003, 0] []))
      (fun t => slotIs t 0
        (hex "a00123e2425ca00058952c65dd594273d153088abcf288ed682673067cd373358444d70f2efc7dd4c6502cf31eb56f4f")
        .down .keyed) = true := by decide +kernel
/-- V-H16: one byte more than the rate. -/
theorem test_squeeze_V_H16_two_chunks :
    leads (step (st [0x00000004, 17] [])) (·.dout == hex "8dd8d589bffc63a9192d231b14a0a5ffcc") = true := by
  decide +kernel
/-- V-K17: in Keyed mode the flag is Squeeze. -/
theorem test_squeeze_V_K17_keyed :
    leads (step (keyed [0x00000004, 16] [])) (·.dout == hex "b0bbb12f061ea97fed79938fabf9cd9a") = true := by
  decide +kernel
/-- V-K8. -/
theorem test_encrypt_V_K8 :
    leads (step (keyed [0x00000005, 5] (hex "68656c6c6f")))
      (fun t => t.dout == hex "541f125e9a" && slotIs t 0
        (hex "68656c6c6f13aee90b74ef976e49cbe64d590f9618729f1a583171530edb5fa4fb2bd66cf7d88c8bae936f5852107cb6")
        .down .keyed) = true := by decide +kernel
/-- V-K12: 25 zero bytes are two chunks. -/
theorem test_encrypt_V_K12_two_chunks :
    leads (step (keyed [0x00000005, 25] (List.replicate 25 0)))
      (·.dout == hex "3c7a7e32f512aee90b74ef976e49cbe64d590f9618729f1a16") = true := by decide +kernel
/-- V-K8d. -/
theorem test_decrypt_V_K8d :
    leads (step (keyed [0x00000006, 5] (hex "541f125e9a")))
      (fun t => t.dout == hex "68656c6c6f" && slotIs t 0
        (hex "68656c6c6f13aee90b74ef976e49cbe64d590f9618729f1a583171530edb5fa4fb2bd66cf7d88c8bae936f5852107cb6")
        .down .keyed) = true := by decide +kernel
/-- V-K13: the ciphertext is fed back. -/
theorem test_decrypt_V_K13_feedback :
    leads (step (keyed [0x00000006, 5] (List.replicate 5 0)))
      (fun t => t.dout == hex "3c7a7e32f5" &&
        ((t.slots.getD 0 Context.reset).s.toList.take 8 == hex "3c7a7e32f513aee9")) = true := by decide +kernel
/-- V-K16. -/
theorem test_squeezeKey_V_K16 :
    leads (step (keyed [0x00000007, 25] []))
      (·.dout == hex "4d6523ea6556396d06e70612fddc7b1f4c321b374486d64b45") = true := by decide +kernel
/-- V-K19. -/
theorem test_ratchet_V_K19 :
    leads (step (keyed [0x00000008] []))
      (fun t => t.dout == [] && slotIs t 0
        (List.replicate 16 0 ++ hex "ec26a8b6efcdd3fb23e495fa9e2104058c6a361312257231792948226882c672")
        .down .keyed) = true := by decide +kernel
/-- V-C1: destination in CTX, source in CTX2. -/
theorem test_clone_V_C1 :
    leads (step (keyed [0x00000109] [])) (fun t => t.slots[1]? == some k1 && t.slots[0]? == some k1) = true := by
  decide +kernel
/-- V-C4: a Hash object over a Keyed one. -/
theorem test_clone_V_C4_hash_over_keyed :
    leads (step (keyed [0x00001009] [])) (fun t => slotIs t 0 [] .up .hash) = true := by decide +kernel
/-- V-P12's PLOAD. -/
theorem test_pload_bytes_in_order :
    leads (step (st [0x00000010] (count 49))) (fun t => t.p == Block.ofBytes (count 48) && t.din == [48]) = true := by
  decide +kernel
/-- V-P13: PPERM 2 of zero. -/
theorem test_pperm_V_P13 :
    leads (step (st [0x00000011, 2] [])) (fun t => t.p == Block.ofBytes
      (hex "5b270078b485367a165405afe182668e4243706ca30ca92cc08e3dbda94ec9e1ad9c39a45bd1b9455857b42996a44a55"))
      = true := by decide +kernel
/-- COUNT = 0 leaves P (40_permutation.md R145). -/
theorem test_pperm_zero :
    leads (step { st [0x00000011, 0] [] with p := Block.ofBytes (count 48) })
      (fun t => t.p == Block.ofBytes (count 48) && t.cmd == []) = true := by decide +kernel
/-- V-P12's PREAD. -/
theorem test_pread_bytes_in_order :
    leads (step { st [0x00000012] [] with p := Block.ofBytes (count 48) })
      (fun t => t.dout == count 48 && t.p == Block.ofBytes (count 48)) = true := by decide +kernel

/-! Faults: V-F4, V-F8, V-F9b, V-F10, V-F12, V-F15, V-F16, V-F18, and V-R4. -/

theorem test_fault_V_F4_rsv :
    leads (step (st [0x00010004, 1] [])) (fun t => t.status == 0x00000411 && t.cmd == [1]) = true := by decide
theorem test_fault_V_F8_clone_source :
    leads (step (st [0x00005009] [])) (fun t => t.status == 0x00000423 && t.cmd == []) = true := by decide
theorem test_fault_V_F9b_keeps_length :
    leads (step (st [0x00000403, 3] [])) (fun t => t.status == 0x00000421 && t.cmd == [3]) = true := by decide
theorem test_fault_V_F10_keeps_din :
    leads (step (st [0x00000005, 5] (hex "68656c6c6f")))
      (fun t => t.status == 0x00000433 && t.cmd == [] && t.din == hex "68656c6c6f") = true := by decide +kernel
theorem test_fault_V_F12_mode_before_empty :
    leads (step (st [0x00000007, 0] [])) (fun t => t.status == 0x00000433) = true := by decide
theorem test_fault_V_F15_empty_before_long :
    leads (step (st [0x00000002, 0, 45, 0] [])) (fun t => t.status == 0x00000443 && t.cmd == []) = true := by decide
theorem test_fault_V_F16_too_long :
    leads (step (st [0x00000002, 40, 5, 0] [])) (fun t => t.status == 0x00000453) = true := by decide
theorem test_fault_V_F18_empty_squeeze :
    leads (step (st [0x00000004, 0] [])) (fun t => t.status == 0x00000463) = true := by decide
theorem test_reset_V_R2_V_R3 :
    (State.resetWith 2).status = 0x00000202 ∧ (State.resetWith 16).status = 0x00001002 := by decide
theorem test_reset_V_R4 :
    leads (step (st [0x00010004, 1] [5])) (fun t => t.host .reset == State.reset) = true := by decide

/-! The assembler: 30_encoding.md R99, R100, V-E2, V-E3, V-E10 and program P2. -/

theorem test_assemble_V_E2 :
    (assembleLine "INIT_KEYED c1, 16, 4, 2 ; key".toList).map Line.words
      = some [0x00000102, 0x00000010, 0x00000004, 0x00000002] := by decide +kernel
theorem test_assemble_V_E3_hex : (assembleLine "ABSORB c3, 0x21".toList).map Line.words = some [0x00000303, 0x21] := by
  decide +kernel
theorem test_assemble_V_E10 : (assembleLine "CLONE c3, c2".toList).map Line.words = some [0x00002309] := by
  decide +kernel
theorem test_assemble_P2 :
    (assembleLine "AEAD_SEAL c0, 16, 16, 3, 11, 16".toList).map Line.words
      = some [2, 0x10, 0, 0, 3, 0x10, 3, 3, 5, 0xb, 4, 0x10] := by decide +kernel
theorem test_assemble_P4 :
    (assembleLine "PKAT 384".toList).map Line.words = some [0x10, 0x11, 0x180, 0x12] := by decide +kernel
theorem test_assemble_din : assembleLine ".din  00 0fA0".toList = some (.din [0x00, 0x0f, 0xa0]) := by decide +kernel
theorem test_assemble_slot16_refused : assembleLine "RATCHET c16".toList = none := by decide +kernel

/-! The finer machine. -/

/-- A stream with the given command in progress. -/
def busyWith (b : InProgress) (core : State) : Stream :=
  { config := Config.reference, core := core, busy := some b, permutations := 0 }

/-- A squeeze of 17 bytes on slot 0, about to begin. -/
def squeeze17 : Stream := busyWith ⟨0, [.squeeze 17 .squeeze], none, [], []⟩ (st [] [])

/-- An encryption that has made an output byte DOUT has no space for, while DIN is full. -/
def stuck : Stream :=
  busyWith ⟨0, [.crypt 24 false .zero], none, [], [0x11]⟩ { keyed [] (count 48) with dout := count 48 }

/-- Fetching a command clears IDLE and keeps FAULT = 0 (70_reset_and_hazards.md R307). -/
theorem test_stream_status_while_busy :
    ({ Stream.resetWith Config.reference with core := st [0x00000004, 17] [] } : Stream).tick.status = 0x00000400 := by
  decide +kernel
/-- The first chunk of V-H16 is in DOUT before the second is squeezed (70_reset_and_hazards.md R306(b)): one tick starts
`up`, twelve run it, one makes the chunk, sixteen move it. -/
theorem test_stream_first_chunk_out :
    (squeeze17.ticks 30).core.dout = hex "8dd8d589bffc63a9192d231b14a0a5ff" := by decide +kernel

/-! Witnesses: for each statement with hypotheses, a state and operands that meet them all. -/

theorem witness_DecodeInvertsEncode :
    (Instr.initKeyed 15 4294967295 0 4294967295).wf = true ∧ (Instr.clone 15 0).wf = true ∧ Instr.pload.wf = true := by
  decide
theorem witness_EncodeInvertsDecode : decode [0x00000f04, 0xffffffff, 7] = .command (.squeeze 15 4294967295) [7] := by
  decide
theorem witness_HeaderDecodesByTableRow :
    decodeHeader 0x00002309 = some { row := .clone, ctx := 3, ctx2 := 2 } ∧
    (0x00002309 : Word) &&& Opcode.clone.tableMask = Opcode.clone.tableMatch := by decide
/-- One header for each cause, at the edges of the ranges: RSV = 1, OPC 0x13, CTX2 = 15 on RATCHET, CTX = 1 on PLOAD, CTX2 = 1 on
PREAD. -/
theorem witness_IllegalHeaderFaults :
    (st [0x00010001] []).fault = none ∧ (st [0x00010001] []).cmd = [0x00010001] ∧
    (0x00010001 : Word).toNat / 2 ^ 16 ≠ 0 ∧
    (0x00000013 : Word).toNat % 2 ^ 8 ∉ [1, 2, 3, 4, 5, 6, 7, 8, 9, 16, 17, 18] ∧
    ((0x0000f008 : Word).toNat % 2 ^ 8 ∈ [1, 2, 3, 4, 5, 6, 7, 8] ∧ (0x0000f008 : Word).toNat / 2 ^ 12 % 16 ≠ 0) ∧
    ((0x00000110 : Word).toNat % 2 ^ 8 ∈ [16, 17, 18] ∧ (0x00000110 : Word).toNat / 2 ^ 8 % 16 ≠ 0) ∧
    ((0x00001012 : Word).toNat % 2 ^ 8 ∈ [16, 17, 18] ∧ (0x00001012 : Word).toNat / 2 ^ 12 % 16 ≠ 0) := by decide
theorem witness_StepRunsDecodedCommand :
    (st [0x00000004, 17, 5] []).fault = none ∧
    decode (st [0x00000004, 17, 5] []).cmd = .command (.squeeze 0 17) [5] := by decide
theorem witness_StreamsRunInOrder :
    (Instr.initHash 3).wf = true ∧ (st (wordsOf [.initHash 3, .pread]) []).fault = none ∧
    (st (wordsOf [.initHash 3, .pread]) []).cmd = wordsOf (.initHash 3 :: [.pread]) ∧
    (st (wordsOf [.initHash 3, .pread]) []).Ready (.initHash 3) ∧
    ∃ t, exec (.initHash 3) (st (wordsOf [.initHash 3, .pread]) []) = .next t :=
  ⟨by decide, by decide, by decide, by decide, _, exec_of_ready (by decide)⟩

theorem witness_DownXorsBlockPadAndFlag :
    (count 16).length ≤ Context.reset.mode.absorbRate ∧ (count 44).length ≤ k1.mode.absorbRate ∧
    ([] : Bytes).length ≤ k1.mode.absorbRate := by decide
theorem witness_UpFlagsThenPermutes : Context.reset.mode = .hash ∧ k1.mode = .keyed := by decide
/-- 33 bytes at rate 16 have a chunk before the last and a last one; 16 bytes at rate 16, and one byte at rate 1, a last one. -/
theorem witness_SplitCutsIntoChunks :
    1 ≤ 16 ∧ count 33 ≠ [] ∧ 1 + 1 < (split (count 33) 16).length ∧ 2 < (split (count 33) 16).length ∧
    count 16 ≠ [] ∧ 0 < (split (count 16) 16).length ∧ count 1 ≠ [] ∧ 0 < (split (count 1) 1).length := by
  decide +kernel
theorem witness_HashModeIgnoresEveryFlagButAbsorb :
    Context.reset.mode = .hash ∧ Flag.absorbKey ≠ .absorb ∧ (count 16).length ≤ 16 := by decide
theorem witness_ShorterSqueezeIsPrefix : 16 ≤ 17 := by decide
theorem witness_CryptTurnLeavesPlaintext : 23 < (count 24).length ∧ (count 24).length ≤ 24 := by decide
theorem witness_RatchetErasesTheRate : k1.mode = .keyed ∧ 15 < 16 ∧ ¬ 16 < 16 ∧ 47 < 48 := by decide

theorem witness_InitHashConstructsHashObject : 3 < (keyed [] []).slots.length := by decide
/-- KLEN + IDLEN = 44, IDLEN = 43, and a counter of two bytes; and no id and no counter. -/
theorem witness_InitKeyedAbsorbsKeyMaterial :
    (3 < (st [] (count 46)).slots.length ∧ 1 ≠ 0 ∧ 1 + 43 ≤ 44 ∧
      (st [] (count 46)).din = count 1 ++ (count 44).drop 1 ++ [44, 45] ++ [] ∧
      (count 1).length = 1 ∧ ((count 44).drop 1).length = 43 ∧ ([44, 45] : Bytes).length = 2) ∧
    (0 < (st [] (count 44)).slots.length ∧ 44 ≠ 0 ∧ 44 + 0 ≤ 44 ∧
      (st [] (count 44)).din = count 44 ++ [] ++ [] ++ [] ∧ (count 44).length = 44 ∧ ([] : Bytes).length = 0) := by
  decide
theorem witness_AbsorbTakesDinAtTheModesRate :
    (keyed [] [7, 8]).slots[0]? = some k1 ∧ (keyed [] [7, 8]).slots[3]? = some Context.reset ∧
    (keyed [] [7, 8]).din = [7] ++ [8] ∧ ([7] : Bytes).length = 1 ∧ (keyed [] [7, 8]).din = [] ++ [7, 8] := by
  decide +kernel
theorem witness_SqueezeWritesOutput : (st [] []).slots[3]? = some Context.reset ∧ 1 ≤ 1 := by decide +kernel
theorem witness_EncryptStreamsCiphertext :
    (keyed [] [7, 8]).slots[0]? = some k1 ∧ k1.mode = .keyed ∧ (keyed [] [7, 8]).din = [7] ++ [8] ∧
    ([7] : Bytes).length = 1 ∧ (keyed [] [7, 8]).din = [] ++ [7, 8] ∧ ([] : Bytes).length = 0 := by decide +kernel
theorem witness_DecryptStreamsPlaintext :
    (keyed [] [7, 8]).slots[0]? = some k1 ∧ k1.mode = .keyed ∧ (keyed [] [7, 8]).din = [7] ++ [8] ∧
    ([7] : Bytes).length = 1 ∧ (keyed [] [7, 8]).din = [] ++ [7, 8] ∧ ([] : Bytes).length = 0 := by decide +kernel
theorem witness_SqueezeKeyWritesOutput :
    (keyed [] []).slots[0]? = some k1 ∧ k1.mode = .keyed ∧ 1 ≤ 1 := by decide +kernel
theorem witness_RatchetFeedsBackSixteenBytes : (keyed [] []).slots[0]? = some k1 ∧ k1.mode = .keyed := by
  decide +kernel
theorem witness_CloneCopiesTheWholeObject :
    3 < (keyed [] []).slots.length ∧ (keyed [] []).slots[0]? = some k1 ∧ 0 < (keyed [] []).slots.length := by
  decide +kernel
theorem witness_PloadTakesFortyEightBytes :
    (st [] (count 49)).din = (Block.ofBytes (count 48)).toList ++ [48] := by decide +kernel
/-- V-K8 and V-K8d. -/
theorem witness_DecryptUndoesEncrypt :
    (keyed [] (hex "68656c6c6f")).slots[0]? = some k1 ∧ k1.mode = .keyed ∧ (hex "68656c6c6f").length = 5 ∧
    (keyed [] (hex "68656c6c6f")).din = hex "68656c6c6f" ++ [] ∧
    (keyed [] (hex "541f125e9a")).slots[0]? = some k1 ∧ (keyed [] (hex "541f125e9a")).din = hex "541f125e9a" ++ [] ∧
    (hex "541f125e9a").length = 5 ∧
    ∃ t, exec (.encrypt 0 5) (keyed [] (hex "68656c6c6f")) = .next t ∧
      t.dout = (keyed [] (hex "68656c6c6f")).dout ++ hex "541f125e9a" :=
  ⟨by decide +kernel, by decide +kernel, by decide +kernel, by decide +kernel, by decide +kernel, by decide +kernel,
    by decide +kernel, _, exec_of_ready (by decide +kernel), by decide +kernel⟩

theorem witness_CommandsTouchOnlyTheirSlot :
    (∃ t, exec (.clone 3 0) (keyed [] []) = .next t) ∧ writtenSlot (.clone 3 0) ≠ some 0 ∧
    (∀ n, Instr.clone 3 0 ≠ .pperm n) ∧ Instr.clone 3 0 ≠ .pload ∧ (keyed [] []).check (.clone 3 0) = none :=
  ⟨⟨_, exec_of_ready (by decide +kernel)⟩, by decide, (by intro n h; cases h), by decide, by decide +kernel⟩
theorem witness_CommandsMoveTheListedByteCounts :
    ((keyed [0x00000005, 1] [7, 8]).Ready (.encrypt 0 1) ∧
      ∃ t, exec (.encrypt 0 1) (keyed [0x00000005, 1] [7, 8]) = .next t) ∧
    (st [0x00000005, 1] [7]).check (.encrypt 0 1) ≠ none ∧ ∃ t, exec (.encrypt 0 1) (st [0x00000005, 1] [7]) = .next t :=
  ⟨⟨by decide +kernel, _, exec_of_ready (by decide +kernel)⟩, by decide +kernel, _, rfl⟩

/-- A ready command leaves a context in the slot it writes. -/
theorem ready_leaves {i : Instr} {s : State} {k : Nat} (hr : s.Ready i)
    (h : (effectOf i (s.din.take (dinCount i)) (s.consumed i)).slots[k]?.isSome = true) :
    ∃ t c, s.Ready i ∧ exec i s = .next t ∧ t.slots[k]? = some c := by
  obtain ⟨c, hc⟩ := Option.isSome_iff_exists.1 h
  exact ⟨_, c, hr, exec_of_ready hr, hc⟩

theorem witness_PhaseAfterEachCommand :
    (∃ t c, (st [] []).Ready (.initHash 3) ∧ exec (.initHash 3) (st [] []) = .next t ∧ t.slots[3]? = some c) ∧
    (∃ t c, (st [] [7]).Ready (.initKeyed 3 1 0 0) ∧ exec (.initKeyed 3 1 0 0) (st [] [7]) = .next t ∧
      t.slots[3]? = some c) ∧
    (∃ t c, (st [] []).Ready (.absorb 0 0) ∧ exec (.absorb 0 0) (st [] []) = .next t ∧ t.slots[0]? = some c) ∧
    (∃ t c, (st [] []).Ready (.squeeze 0 1) ∧ exec (.squeeze 0 1) (st [] []) = .next t ∧ t.slots[0]? = some c) ∧
    (∃ t c, (keyed [] []).Ready (.encrypt 0 0) ∧ exec (.encrypt 0 0) (keyed [] []) = .next t ∧
      t.slots[0]? = some c) ∧
    (∃ t c, (keyed [] []).Ready (.decrypt 0 0) ∧ exec (.decrypt 0 0) (keyed [] []) = .next t ∧
      t.slots[0]? = some c) ∧
    (∃ t c, (keyed [] []).Ready (.squeezeKey 0 1) ∧ exec (.squeezeKey 0 1) (keyed [] []) = .next t ∧
      t.slots[0]? = some c) ∧
    (∃ t c, (keyed [] []).Ready (.ratchet 0) ∧ exec (.ratchet 0) (keyed [] []) = .next t ∧ t.slots[0]? = some c) ∧
    ∃ t c, (keyed [] []).Ready (.clone 3 0) ∧ exec (.clone 3 0) (keyed [] []) = .next t ∧ t.slots[3]? = some c :=
  ⟨ready_leaves (by decide +kernel) (by decide +kernel), ready_leaves (by decide +kernel) (by decide +kernel),
    ready_leaves (by decide +kernel) (by decide +kernel), ready_leaves (by decide +kernel) (by decide +kernel),
    ready_leaves (by decide +kernel) (by decide +kernel), ready_leaves (by decide +kernel) (by decide +kernel),
    ready_leaves (by decide +kernel) (by decide +kernel), ready_leaves (by decide +kernel) (by decide +kernel),
    ready_leaves (by decide +kernel) (by decide +kernel)⟩

theorem witness_FaultingCommandChangesNothingElse :
    (st [] []).fault = none ∧ (st [] []).check (.clone 0 4) = some .badCtx ∧
    (st [] []).check (.squeezeKey 0 0) = some .mode ∧ (st [] []).check (.initKeyed 0 0 45 0) = some .keyEmpty ∧
    (st [] []).check (.initKeyed 0 40 5 0) = some .keyTooLong ∧ (st [] []).check (.squeeze 0 0) = some .emptySqueeze := by
  decide
/-- With the length word and without it, and on CLONE's source. -/
theorem witness_BadCtxFaultsFromTheHeaderAlone :
    (st [0x00000403] []).fault = none ∧ (st [0x00000403] []).cmd = 0x00000403 :: [] ∧
    (st [0x00000403, 3] []).cmd = 0x00000403 :: [3] ∧
    decodeHeader 0x00000403 = some { row := .absorb, ctx := 4, ctx2 := 0 } ∧
    (∃ k ∈ ({ row := .absorb, ctx := 4, ctx2 := 0 } : Header).slotFields, (st [0x00000403] []).slots.length ≤ k) ∧
    ∃ k ∈ ({ row := .clone, ctx := 0, ctx2 := 5 } : Header).slotFields, (st [] []).slots.length ≤ k := by decide
theorem witness_WaitsChangeNothing :
    (st [] []).fault = none ∧ (st [] []).cmd = [] ∧
    (decode (st [0x00000302, 16, 4] []).cmd = .waiting { row := .initKeyed, ctx := 3, ctx2 := 0 } ∧
      ∀ k ∈ ({ row := .initKeyed, ctx := 3, ctx2 := 0 } : Header).slotFields, k < (st [0x00000302] []).slots.length) ∧
    (decode (st [0x00000010] (count 47)).cmd = .command .pload [] ∧ (st [0x00000010] (count 47)).check .pload = none ∧
      (st [0x00000010] (count 47)).din.length < dinCount .pload) := by decide
theorem witness_OnlyAFaultedCoreStops :
    (st [0xffffffff] []).fault = none ∧ ({ st [0x00000001] [] with fault := some .mode } : State).fault = some .mode := by
  decide
theorem witness_FaultIsFrozenUntilReset :
    ({ st [0x00000001] [5] with fault := some .mode } : State).fault = some .mode ∧
    Event.host .reset ∉ [Event.core, .host (.writeCmd 1), .host (.writeDin 2), .host .readDout, .host .readStatus] := by
  decide
theorem witness_StatusFieldsReadAsListed :
    (State.resetWith 16).slots.length ≤ 16 ∧ (State.resetWith 2).slots.length ≤ 16 := by decide
theorem witness_ResetLeavesTheListedValues :
    (2 ≤ 2 ∧ 2 ≤ 16 ∧ Context.reset ∈ (State.resetWith 2).slots) ∧ (2 ≤ 16 ∧ 16 ≤ 16) := by decide +kernel
theorem witness_ResetForgetsEverything :
    3 < (keyed [] []).slots.length ∧ ∃ t, exec (.initHash 3) (keyed [] []) = .next t :=
  ⟨by decide, _, exec_of_ready (by decide +kernel)⟩
theorem witness_EveryEventKeepsNctx :
    (State.resetWith 2).Legal ∧ (State.resetWith 16).Legal ∧ Reachable 2 (State.resetWith 2) :=
  ⟨by decide, by decide, [], rfl⟩

/-- MODE of slot `k` after a step. -/
def modeAfter (o : Host.Outcome State Fault Refusal) (k : Nat) : Option Mode :=
  match o with
  | .next t => t.slots[k]?.map Context.mode
  | .fault _ => none
  | .refused _ => none

/-- INIT_HASH on a Keyed slot, INIT_KEYED on a Hash slot, CLONE from a Keyed to a Hash slot, reset of a Keyed slot. -/
theorem witness_ModeChangesOnlyByReplacement :
    modeAfter (step (keyed [0x00000001] [])) 0 = some .hash ∧
    modeAfter (step (st [0x00000002, 1, 0, 0] [7])) 0 = some .keyed ∧
    modeAfter (step (keyed [0x00000109] [])) 1 = some .keyed ∧
    (keyed [] []).slots[0]?.map Context.mode = some .keyed ∧ (st [] []).slots[0]?.map Context.mode = some .hash ∧
    (keyed [] []).slots[1]?.map Context.mode = some .hash ∧
    ((keyed [] []).host .reset).slots[0]?.map Context.mode ≠ (keyed [] []).slots[0]?.map Context.mode := by
  decide +kernel

/-- V-K1 is what INIT_KEYED constructs. -/
theorem k1_eq : k1 = Context.keyedFrom (count 16) 16 0 0 := by decide +kernel
theorem witness_KeyedObjectsBeganWithAKey :
    (keyed [] []).KeyedByKey ∧ keyedOnly (.ratchet 0) = true ∧ (Instr.ratchet 0).slotFields = [0] ∧
    (keyed [] []).check (.ratchet 0) = none := by
  refine ⟨?_, by decide, by decide, by decide +kernel⟩
  intro c hc hm
  have h : (keyed [] []).slots = [k1, Context.reset, Context.reset, Context.reset] := by decide +kernel
  rw [h] at hc
  simp only [List.mem_cons, List.not_mem_nil, or_false] at hc
  rcases hc with rfl | rfl | rfl | rfl
  · rw [k1_eq]; exact .init _ _ _ _ (by decide) (by decide) (by decide)
  all_goals cases hm
theorem witness_ModeSafeStreamsNeverFaultWithMode :
    modeSafe (st [] [7]).modes [.initKeyed 0 1 0 0, .encrypt 0 0] = true ∧ (st [] [7]).Ready (.initKeyed 0 1 0 0) ∧
    ∃ t, exec (.initKeyed 0 1 0 0) (st [] [7]) = .next t :=
  ⟨by decide +kernel, by decide +kernel, _, exec_of_ready (by decide +kernel)⟩

theorem witness_TicksKeepTheFinalState : squeeze17.Inv ∧ squeeze17.busy ≠ none ∧ stuck.Inv ∧ stuck.busy ≠ none := by
  decide +kernel
/-- One DIN byte is there when the command begins, and one is still to come. -/
theorem witness_FetchBeginsTheAtomicTransition :
    (Stream.resetWith Config.reference).busy = none ∧ (keyed [0x00000005, 2] [7]).fault = none ∧
    decode (keyed [0x00000005, 2] [7]).cmd = .command (.encrypt 0 2) [] ∧
    (({ Stream.resetWith Config.reference with core := keyed [0x00000005, 2] [7] } : Stream).withDin [8]).core.Ready
      (.encrypt 0 2) ∧
    ∃ t, exec (.encrypt 0 2)
      (({ Stream.resetWith Config.reference with core := keyed [0x00000005, 2] [7] } : Stream).withDin [8]).core
        = .next t :=
  ⟨by decide, by decide +kernel, by decide +kernel, by decide +kernel, _, exec_of_ready (by decide +kernel)⟩
/-- A command that faults, and words that are none. -/
theorem witness_TickWithoutCommandIsTheStep :
    (Stream.resetWith Config.reference).busy = none ∧ (∃ t, step (st [0x00000008] []) = .next t) ∧
    (∀ i rest, decode (st [0x00000008] []).cmd = .command i rest → (st [0x00000008] []).check i ≠ none) ∧
    (∃ t, step (st [0x00000303] []) = .next t) ∧
    ∀ i rest, decode (st [0x00000303] []).cmd = .command i rest → (st [0x00000303] []).check i ≠ none := by
  refine ⟨by decide, ⟨_, rfl⟩, ?_, ⟨_, rfl⟩, ?_⟩
  · intro i rest h
    have e : decode (st [0x00000008] []).cmd = .command (.ratchet 0) [] := by decide
    rw [e] at h
    injection h with h1 h2
    subst h1
    decide
  · intro i rest h
    have e : decode (st [0x00000303] []).cmd = .waiting { row := .absorb, ctx := 3, ctx2 := 0 } := by decide
    rw [e] at h
    cases h
/-- PREAD fills DOUT exactly. -/
theorem witness_ReadyCommandsComplete :
    (Stream.resetWith Config.reference).busy = none ∧ (st [0x00000012] []).fault = none ∧
    decode (st [0x00000012] []).cmd = .command .pread [] ∧ (st [0x00000012] []).Ready .pread ∧
    (st [0x00000012] []).dout.length + doutCount .pread ≤ Config.reference.doutDepth := by decide
theorem witness_HostEventsCommuteWithTheCommand :
    (∃ t, stuck.finish = some t) ∧ stuck.core.dout ≠ [] ∧ (∃ t, squeeze17.finish = some t) ∧
    squeeze17.core.din.length < squeeze17.config.dinDepth := by
  refine ⟨?_, by decide, ⟨_, rfl⟩, by decide⟩
  have h : stuck.finish.isSome = true := by decide +kernel
  exact Option.isSome_iff_exists.1 h
theorem witness_DoutIsAPrefixOfTheFinalDout : ∃ t, squeeze17.finish = some t := ⟨_, rfl⟩
theorem witness_DrainedCoreMakesProgress :
    (stuck.host .readDout).Inv ∧ (stuck.host .readDout).busy ≠ none ∧
    (stuck.host .readDout).core.dout.length < (stuck.host .readDout).config.doutDepth ∧
    48 ≤ (stuck.host .readDout).core.din.length := by decide +kernel
theorem witness_FullQueuesDeadlock :
    stuck.busy = some ⟨0, [.crypt 24 false .zero], none, [], [0x11]⟩ ∧ ([0x11] : Bytes) ≠ [] ∧
    stuck.core.dout.length = stuck.config.doutDepth ∧ 1 ≤ stuck.config.doutDepth ∧
    stuck.config.dinDepth ≤ stuck.core.din.length := by decide +kernel
/-- Two cores that differ in key material only. -/
theorem witness_StepsAreDataIndependent :
    (busyWith ⟨0, [.up .crypt], none, [], []⟩ (keyed [] [1])).blank
      = (busyWith ⟨0, [.up .crypt], none, [], []⟩
          { keyed [] [2] with slots := (keyed [] []).slots.set 0 { k1 with s := Block.zero } }).blank := by decide +kernel
theorem witness_FinerMachineKeepsItsInvariant : squeeze17.Inv ∧ stuck.Inv := by decide +kernel
theorem witness_StatusDuringACommand : squeeze17.Inv ∧ squeeze17.busy ≠ none := by decide +kernel

end Sys2Proof.Tests
end

/-! The STATUS word field by field (10_state.md R37), and the statements about reading it (O42, O60). -/

namespace Sys2Proof.Machine

open Sys2Proof

/-! The fields of the word, from bit 0 up. -/

theorem State.statusWord_fault_bit (s : State) (idle : Bool) :
    (s.statusWord idle).getLsbD 0 = s.fault.isSome := by
  simp only [State.statusWord, BitVec.getLsbD_append]
  simp

theorem State.statusWord_idle_bit (s : State) (idle : Bool) :
    (s.statusWord idle).getLsbD 1 = idle := by
  simp only [State.statusWord, BitVec.getLsbD_append]
  simp

@[simp] theorem State.statusWord_reserved_low (s : State) (idle : Bool) :
    (s.statusWord idle).extractLsb' 2 2 = 0 := by
  rw [State.statusWord, BitVec.extractLsb'_append_eq_of_le (by decide),
    BitVec.extractLsb'_append_eq_of_le (by decide), BitVec.extractLsb'_append_eq_of_add_le (by decide)]
  rfl

/-- Above its four low bits the word is NCTX and FCODE. -/
theorem State.statusWord_extract_of_le (s : State) (idle : Bool) {start : Nat} (len : Nat) (h : 4 ≤ start) :
    (s.statusWord idle).extractLsb' start len =
      (0#19 ++ BitVec.ofNat 5 s.nctx ++ s.fcode).extractLsb' (start - 4) len := by
  rw [State.statusWord, BitVec.extractLsb'_append_eq_of_le (by omega),
    BitVec.extractLsb'_append_eq_of_le (by omega), BitVec.extractLsb'_append_eq_of_le (by omega)]
  simp only [Nat.sub_sub, Nat.reduceAdd]

@[simp] theorem State.statusWord_fcode (s : State) (idle : Bool) :
    (s.statusWord idle).extractLsb' 4 4 = s.fcode := by
  rw [s.statusWord_extract_of_le idle 4 (by decide), BitVec.extractLsb'_append_eq_of_add_le (by decide)]
  exact BitVec.extractLsb'_eq_self

@[simp] theorem State.statusWord_nctx (s : State) (idle : Bool) :
    (s.statusWord idle).extractLsb' 8 5 = BitVec.ofNat 5 s.nctx := by
  rw [s.statusWord_extract_of_le idle 5 (by decide), BitVec.extractLsb'_append_eq_of_le (by decide),
    BitVec.extractLsb'_append_eq_of_add_le (by decide)]
  exact BitVec.extractLsb'_eq_self

@[simp] theorem State.statusWord_reserved_high (s : State) (idle : Bool) :
    (s.statusWord idle).extractLsb' 13 19 = 0 := by
  rw [s.statusWord_extract_of_le idle 19 (by decide), BitVec.extractLsb'_append_eq_of_le (by decide),
    BitVec.extractLsb'_append_eq_of_le (by decide)]
  exact BitVec.extractLsb'_eq_self

/-- The five bits of the NCTX field hold every legal number of slots. -/
theorem State.statusWord_nctx_toNat {s : State} (idle : Bool) (h : s.slots.length ≤ 16) :
    ((s.statusWord idle).extractLsb' 8 5).toNat = s.slots.length := by
  rw [State.statusWord_nctx, BitVec.toNat_ofNat]
  exact Nat.mod_eq_of_lt (Nat.lt_of_le_of_lt h (by decide))

/-- Settles O42: each field of the STATUS word by its own lemma, FCODE by the list of the fault codes. -/
theorem statusFieldsReadAsListed : Obligations.StatusFieldsReadAsListed := by
  intro s hn
  refine ⟨s.statusWord_fault_bit _, s.statusWord_idle_bit _, s.statusWord_reserved_low _, ?_,
    State.statusWord_nctx_toNat _ hn, s.statusWord_reserved_high _⟩
  rw [State.status, State.statusWord_fcode, State.fcode]
  cases s.fault with
  | none => rfl
  | some code => cases code <;> rfl

/-- Settles O60: a command in progress makes IDLE 0, and the invariant excludes a fault beside it. -/
theorem statusDuringACommand : Obligations.StatusDuringACommand := by
  intro σ ⟨_, hfault⟩ hbusy
  have hidle : σ.idle = false := by simp [Stream.idle, hbusy]
  rw [Stream.status, State.statusWord_idle_bit, State.statusWord_fault_bit, hidle, hfault hbusy]
  exact ⟨rfl, rfl⟩

end Sys2Proof.Machine

/-! The word view of a state and its inverse (10_state.md R32), and the statement about them (O9). -/

namespace Sys2Proof.Machine

open Sys2Proof

/-! Words 0 to 3 are plane A, 4 to 7 plane B, 8 to 11 plane C. -/

theorem Planes.word_a (w : Planes) (i : Fin 4) : w.word i = w.a.get i := by fin_cases i <;> rfl
theorem Planes.word_b (w : Planes) (i : Fin 4) : w.word (4 + i) = w.b.get i := by fin_cases i <;> rfl
theorem Planes.word_c (w : Planes) (i : Fin 4) : w.word (8 + i) = w.c.get i := by fin_cases i <;> rfl

/-- Word views with equal words are equal. -/
theorem Planes.ext_word {v w : Planes} (h : ∀ j < 12, v.word j = w.word j) : v = w := by
  have ha : v.a = w.a := Plane.ext_get fun i => by
    rw [← Planes.word_a, ← Planes.word_a, h _ (by omega)]
  have hb : v.b = w.b := Plane.ext_get fun i => by
    rw [← Planes.word_b, ← Planes.word_b, h _ (by omega)]
  have hc : v.c = w.c := Plane.ext_get fun i => by
    rw [← Planes.word_c, ← Planes.word_c, h _ (by omega)]
  cases v
  cases w
  simp_all

/-- Byte `t` of word `j` of a word view, where the inverse view writes it. -/
theorem Planes.bytes_get_word (w : Planes) (j t : Nat) (hj : j < 12) (ht : t < 4) :
    w.bytes[4 * j + t] = (w.word j).extractLsb' (8 * t) 8 := by
  rw [Planes.bytes_get, show (4 * j + t) / 4 = j by omega, show (4 * j + t) % 4 = t by omega]

/-- Byte `t` of word `j` of a state. -/
theorem Block.word_extract (s : Block) (j : Fin 12) (t : Nat) (ht : t < 4) :
    (s.word j).extractLsb' (8 * t) 8 = s[4 * j.val + t] := by
  obtain ⟨h0, h1, h2, h3⟩ :=
    le32_extract s[4 * j.val] s[4 * j.val + 1] s[4 * j.val + 2] s[4 * j.val + 3]
  interval_cases t
  · exact h0
  · exact h1
  · exact h2
  · exact h3

@[simp] theorem Block.bytes_planes (s : Block) : s.planes.bytes = s := by
  ext i hi
  rw [Planes.bytes_get _ i hi, Block.planes_word s _ (by omega),
    Block.word_extract s _ _ (Nat.mod_lt _ (by decide))]
  simp only [Nat.div_add_mod]

@[simp] theorem Planes.planes_bytes (w : Planes) : w.bytes.planes = w := by
  refine Planes.ext_word fun j hj => ?_
  have hbyte := fun t ht => w.bytes_get_word j t hj ht
  rw [Block.planes_word _ j hj]
  show le32 w.bytes[4 * j + 0] w.bytes[4 * j + 1] w.bytes[4 * j + 2] w.bytes[4 * j + 3] = w.word j
  rw [hbyte 0 (by decide), hbyte 1 (by decide), hbyte 2 (by decide), hbyte 3 (by decide)]
  exact le32_of_extract (w.word j)

/-- Settles O9: lane `i` of the three planes is word `i`, `4 + i` and `8 + i`, read by `LE32` and written back
byte by byte; the inverses are `Block.bytes_planes` and `Planes.planes_bytes`. -/
theorem wordViewIsLossless : Obligations.WordViewIsLossless := by
  refine ⟨fun s i => ?_, fun w i t => ?_, Block.bytes_planes, Planes.planes_bytes⟩
  · rw [← Planes.word_a, ← Planes.word_b, ← Planes.word_c, Block.planes_word s i.val (by omega),
      Block.planes_word s (4 + i.val) (by omega), Block.planes_word s (8 + i.val) (by omega)]
    exact ⟨rfl, rfl, rfl⟩
  · rw [← Planes.word_a, ← Planes.word_b, ← Planes.word_c]
    exact ⟨w.bytes_get_word _ _ (by omega) t.isLt, w.bytes_get_word _ _ (by omega) t.isLt,
      w.bytes_get_word _ _ (by omega) t.isLt⟩

end Sys2Proof.Machine

/-! What a command leaves alone, field by field, and the number of slots along every run (O33, O45). -/

namespace Sys2Proof.Machine

open Sys2Proof

/-! The effects of the commands on the fields that they all treat alike. -/

@[simp] theorem effectOf_nctx (i : Instr) (x : Bytes) (s : State) :
    (effectOf i x s).slots.length = s.slots.length := by
  cases i <;> simp [effectOf]

@[simp] theorem effectOf_cmd (i : Instr) (x : Bytes) (s : State) : (effectOf i x s).cmd = s.cmd := by
  cases i <;> simp [effectOf]

@[simp] theorem effectOf_fault (i : Instr) (x : Bytes) (s : State) : (effectOf i x s).fault = s.fault := by
  cases i <;> simp [effectOf]

/-- An effect changes no slot but the one the command writes. -/
theorem effectOf_slot {i : Instr} {j : Nat} (h : writtenSlot i ≠ some j) (x : Bytes) (s : State) :
    (effectOf i x s).slots[j]? = s.slots[j]? := by
  cases i with
  | initHash | initKeyed | absorb | ratchet | clone =>
    exact (State.onSlot_get ..).trans (if_neg fun hk => h (congrArg some hk))
  | squeeze | encrypt | decrypt | squeezeKey =>
    exact (State.onSlotOut_get ..).trans (if_neg fun hk => h (congrArg some hk))
  | pload | pperm | pread => simp [effectOf]

/-- Only PLOAD and PPERM change P. -/
theorem effectOf_p {i : Instr} (hperm : ∀ n, i ≠ .pperm n) (hload : i ≠ .pload) (x : Bytes) (s : State) :
    (effectOf i x s).p = s.p := by
  cases i <;> simp_all [effectOf]

/-- A fault consumes no more than the words of the command. -/
theorem FaultCode.wordsConsumed_le (c : FaultCode) {n : Nat} (h : 1 ≤ n) : c.wordsConsumed n ≤ n := by
  cases c <;> simp [FaultCode.wordsConsumed, h]

/-- Settles O33, by the three things a command can do: its fault and its wait touch no slot and not P, and its
effect has the frame of the lemmas about `effectOf`. -/
theorem commandsTouchOnlyTheirSlot : Obligations.CommandsTouchOnlyTheirSlot := by
  intro i s t h
  rcases exec_cases h with ⟨c, hc, rfl⟩ | ⟨-, -, rfl⟩ | ⟨-, rfl⟩
  case inl =>
    refine ⟨rfl, fun _ _ => rfl, fun _ _ => rfl, ⟨_, rfl, c.wordsConsumed_le (Nat.le_add_right _ _)⟩, ?_⟩
    simp [hc]
  case inr.inl =>
    exact ⟨rfl, fun _ _ => rfl, fun _ _ => rfl, ⟨0, rfl, Nat.zero_le _⟩, fun _ => rfl⟩
  case inr.inr =>
    exact ⟨effectOf_nctx .., fun j hj => effectOf_slot hj _ _, fun hperm hload => effectOf_p hperm hload _ _,
      ⟨i.words, effectOf_cmd .., Nat.le_refl _⟩, fun _ => effectOf_fault ..⟩

/-! The number of slots. -/

/-- No command changes the number of slots. -/
theorem exec_nctx {i : Instr} {s t : State} (h : exec i s = .next t) : t.slots.length = s.slots.length :=
  (commandsTouchOnlyTheirSlot i s t h).1

/-- No step of the core changes the number of slots. -/
theorem step_nctx {s t : State} (h : step s = .next t) : t.slots.length = s.slots.length := by
  rcases step_cases s with ⟨c, -, hs⟩ | ⟨i, rest, -, -, hs⟩ | ⟨-, -, hs⟩ <;> rw [hs] at h
  · cases h
  · exact exec_nctx h
  · cases h
    rw [(s.incomplete_frame _).1]

@[simp] theorem State.react_nctx (s : State) (e : Event) : (s.react e).slots.length = s.slots.length := by
  cases e with
  | host e => exact s.host_nctx e
  | core =>
    unfold State.react
    cases h : step s with
    | next t => exact step_nctx h
    | fault r => rfl
    | refused r => rfl

@[simp] theorem State.reactAll_nctx (s : State) (es : List Event) :
    (s.reactAll es).slots.length = s.slots.length := by
  induction es generalizing s with
  | nil => rfl
  | cons e es ih => rw [State.reactAll, ih, State.react_nctx]

/-- A state reachable from reset has the slots of the reset. -/
theorem Reachable.nctx {n : Nat} {s : State} (h : Reachable n s) : s.slots.length = n := by
  obtain ⟨es, rfl⟩ := h
  simp

/-- Settles O45: one event keeps the number of slots, hence so does every run from reset. -/
theorem everyEventKeepsNctx : Obligations.EveryEventKeepsNctx := by
  intro s e hlegal
  refine ⟨?_, s.react_nctx e, fun n => Reachable.nctx⟩
  rw [State.Legal, State.react_nctx]
  exact hlegal

end Sys2Proof.Machine

/-! The invariant of the finer machine is kept by every tick and host event (O59). -/

namespace Sys2Proof.Machine

open Sys2Proof

/-! When the invariant holds, by what is in progress. -/

/-- With no command in progress the invariant says nothing. -/
theorem Stream.Inv.of_idle {σ : Stream} (h : σ.busy = none) : σ.Inv := by
  simp [Stream.Inv, Stream.wf, h]

/-- With a command in progress it says that this is well formed and the core is not faulted. -/
theorem Stream.inv_iff_of_busy {σ : Stream} {b : InProgress} (h : σ.busy = some b) :
    σ.Inv ↔ b.wf = true ∧ σ.core.fault = none := by
  simp [Stream.Inv, Stream.wf, h]

/-- It holds with a well-formed command in progress and no fault. -/
theorem Stream.Inv.of_running {config : Config} {core : State} {b : InProgress} {n : Nat} (hwf : b.wf = true)
    (hfault : core.fault = none) : Stream.Inv ⟨config, core, some b, n⟩ :=
  (Stream.inv_iff_of_busy rfl).2 ⟨hwf, hfault⟩

/-- A command in progress is well formed when its work is and the engine's round index is below 12. -/
theorem InProgress.wf_iff (b : InProgress) :
    b.wf = true ↔ (∀ t ∈ b.todo, t.wf = true) ∧ ∀ e, b.engine = some e → e.round < 12 := by
  cases h : b.engine <;> simp [InProgress.wf, h]

/-! A command begins. -/

/-- The work that a command begins with is well formed; ABSORB's rate is that of its slot's mode. -/
theorem State.work_wf (s : State) (i : Instr) : ∀ t ∈ s.work i, t.wf = true := by
  cases i with
  | absorb k len =>
    have hpos : 1 ≤ (s.contextAt k).mode.absorbRate := Mode.absorbRate_pos _
    have hle : (s.contextAt k).mode.absorbRate ≤ 44 := Mode.absorbRate_le _
    simp [State.work, Todo.wf, hpos, hle]
  | initKeyed k klen idlen clen =>
    by_cases hc : clen > 0 <;> simp [State.work, Todo.wf, hc]
  | initHash | squeeze | encrypt | decrypt | squeezeKey | ratchet | clone | pload | pperm | pread =>
    simp [State.work, Todo.wf]

theorem State.begin_wf (s : State) (i : Instr) : (s.begin i).wf = true :=
  (InProgress.wf_iff _).2 ⟨s.work_wf i, by simp [State.begin]⟩

/-- A fetch begins a command only in a core without a fault. -/
theorem Stream.fetch_inv {σ : Stream} (h : σ.busy = none) : σ.fetch.Inv := by
  unfold Stream.fetch
  split
  · exact .of_idle h
  · next hfault =>
    split
    · split
      · exact .of_idle h
      · exact .of_running (σ.core.begin_wf _) hfault
    · exact .of_idle h

/-- DinRead leaves the fault alone. -/
theorem State.dinRead_fault {s t : State} {n : Nat} {x : Bytes} (h : s.dinRead n = some (x, t)) :
    t.fault = s.fault := by
  obtain ⟨-, -, rfl⟩ := State.dinRead_eq_some.1 h
  rfl

/-! A command in progress makes progress. -/

section
variable {σ : Stream} {b : InProgress}

/-- One round moves the round index from `r < 11` to `r + 1`, or lets the engine rest. -/
theorem Stream.engineStep_inv {e : Engine} (hb : σ.busy = some b) (h : σ.Inv) : (σ.engineStep b e).Inv := by
  obtain ⟨hwf, hfault⟩ := (Stream.inv_iff_of_busy hb).1 h
  obtain ⟨htodo, -⟩ := b.wf_iff.1 hwf
  refine .of_running ((InProgress.wf_iff _).2 ⟨htodo, fun e' he => ?_⟩) ?_
  · split at he
    · cases he
    · cases he
      show e.round + 1 < 12
      omega
  · cases e with
    | mk target round => cases target <;> exact hfault

/-- An engine that starts at round 0 is well formed. -/
theorem Stream.startUp_inv {f : Flag} {rest : List Todo} (hfault : σ.core.fault = none)
    (hrest : ∀ t ∈ rest, t.wf = true) : (σ.startUp b f rest).Inv :=
  .of_running ((InProgress.wf_iff _).2 ⟨hrest, by simp⟩) hfault

/-- A piece of work that leaves the engine at rest and the core without a fault. -/
theorem Stream.advance_inv {s : State} {b' : InProgress} (hfault : s.fault = none)
    (htodo : ∀ t ∈ b'.todo, t.wf = true) (hrest : b'.engine = none) : (σ.advance s b').Inv :=
  .of_running (b'.wf_iff.2 ⟨htodo, by simp [hrest]⟩) hfault

/-- One piece of work, with the engine at rest. -/
theorem Stream.workStep_inv {t : Todo} {ts : List Todo} (hb : σ.busy = some b) (hrest : b.engine = none)
    (htodo : b.todo = t :: ts) (h : σ.Inv) : (σ.workStep b t ts).Inv := by
  obtain ⟨hwf, hfault⟩ := (Stream.inv_iff_of_busy hb).1 h
  have hall : ∀ u ∈ t :: ts, u.wf = true := htodo ▸ (b.wf_iff.1 hwf).1
  obtain ⟨ht, hts⟩ := List.forall_mem_cons.1 hall
  cases t with
  | construct | copyFrom | pad | emit | saveScratch | feedScratch | readRaw =>
    exact Stream.advance_inv hfault hts hrest
  | up f => exact Stream.startUp_inv hfault hts
  | squeeze left f =>
    refine Stream.startUp_inv hfault (List.forall_mem_cons.2 ⟨rfl, ?_⟩)
    split
    · exact hts
    · exact List.forall_mem_cons.2 ⟨rfl, List.forall_mem_cons.2 ⟨rfl, hts⟩⟩
  | crypt left decrypting f =>
    refine Stream.startUp_inv hfault (List.forall_mem_cons.2 ⟨by simp [Todo.wf], ?_⟩)
    split
    · exact hts
    · exact List.forall_mem_cons.2 ⟨rfl, hts⟩
  | permuteRaw count =>
    cases count with
    | zero => exact Stream.advance_inv hfault hts hrest
    | succ n =>
      exact .of_running ((InProgress.wf_iff _).2 ⟨List.forall_mem_cons.2 ⟨rfl, hts⟩, by simp⟩) hfault
  | cryptChunk | load =>
    simp only [Stream.workStep]
    split
    · exact h
    · next hd => exact Stream.advance_inv ((State.dinRead_fault hd).trans hfault) hts hrest
  | absorb left tail rate f =>
    simp only [Stream.workStep]
    split
    · exact Stream.startUp_inv hfault hall
    · split
      · exact h
      · next hd =>
        refine Stream.advance_inv ((State.dinRead_fault hd).trans hfault) ?_ hrest
        dsimp only
        split
        · exact hts
        · exact List.forall_mem_cons.2 ⟨ht, hts⟩

end

/-- Every tick keeps the invariant: the bytes that wait for DOUT, the engine and the work each do. -/
theorem Stream.tick_inv {σ : Stream} (h : σ.Inv) : σ.tick.Inv := by
  unfold Stream.tick
  split
  · next hb => exact Stream.fetch_inv hb
  · next b hb =>
    obtain ⟨hwf, hfault⟩ := (Stream.inv_iff_of_busy hb).1 h
    split
    · split
      · exact .of_running hwf hfault
      · exact h
    · split
      · exact Stream.engineStep_inv hb h
      · next hrest =>
        split
        · exact .of_idle rfl
        · next htodo => exact Stream.workStep_inv hb hrest htodo h

/-- A host event leaves the command in progress and the fault alone, but RST, which discards both. -/
theorem Stream.host_inv {σ : Stream} (h : σ.Inv) (e : HostEvent) : (σ.host e).Inv := by
  cases e with
  | writeCmd w => exact h
  | writeDin x =>
    simp only [Stream.host]
    split <;> exact h
  | readDout => exact h
  | readStatus => exact h
  | reset => exact .of_idle rfl

/-- Settles O59: ticks by `Stream.tick_inv`, host events by `Stream.host_inv`. -/
theorem finerMachineKeepsItsInvariant : Obligations.FinerMachineKeepsItsInvariant := by
  intro σ e h
  cases e with
  | core => exact Stream.tick_inv h
  | host e => exact Stream.host_inv h e

end Sys2Proof.Machine

/-! The head of CMD: the words of a command decode to it and are the ones dropped (30_encoding.md R93, R97), and the
statements about how commands are taken from CMD (O6, O7, O8). -/

namespace Sys2Proof

/-! A command's words at the head of CMD. -/

/-- The row of a decoded command is that of its header. -/
@[simp] theorem Header.command_row (hd : Header) (ls : List Nat) : (hd.command ls).row = hd.row := by
  obtain ⟨r, c, c2⟩ := hd
  cases r <;> rfl

/-- The length words of a well-formed command hold its lengths. -/
theorem Instr.lengths_of_words {i : Instr} (h : i.wf = true) :
    (i.lengths.map (BitVec.ofNat 32)).map BitVec.toNat = i.lengths := by
  have hlt : ∀ n ∈ i.lengths, n < 2 ^ 32 := by
    simpa using (Bool.and_eq_true_iff.1 h).2
  rw [List.map_map]
  exact (List.map_congr_left fun n hn => Nat.mod_eq_of_lt (hlt n hn)).trans (List.map_id _)

/-- A well-formed command's words decode to it, whatever follows them. -/
theorem decode_encode_append {i : Instr} (h : i.wf = true) (rest : List Word) :
    decode (encode i ++ rest) = .command i rest := by
  have hlen : (i.lengths.map (BitVec.ofNat 32)).length = i.row.lengthWords := by
    rw [List.length_map, Instr.lengths_length]
  have henough : ¬ (i.lengths.map (BitVec.ofNat 32) ++ rest).length < i.row.lengthWords := by
    rw [List.length_append, hlen]
    omega
  simp only [encode, List.cons_append, decode, decodeHeader_headerWord h]
  rw [if_neg henough, List.take_left' hlen, List.drop_left' hlen, Instr.lengths_of_words h,
    Instr.command_of_fields]

/-- The decoder leaves what stands behind the command's words. -/
theorem drop_words_of_decode {ws rest : List Word} {i : Instr} (h : decode ws = .command i rest) :
    ws.drop i.words = rest := by
  cases ws with
  | nil => cases h
  | cons w ws =>
    simp only [decode] at h
    split at h
    · cases h
    · split at h
      · cases h
      · cases h
        rw [Instr.words, Header.command_row, Nat.add_comm, List.drop_succ_cons]

end Sys2Proof

namespace Sys2Proof.Machine

open Sys2Proof

/-! The step at a whole command. -/

theorem wordsOf_cons (i : Instr) (is : List Instr) : wordsOf (i :: is) = encode i ++ wordsOf is :=
  List.flatMap_cons

/-- A core without a fault runs the command at the head of CMD. -/
theorem step_of_decode {s : State} {i : Instr} {rest : List Word} (hf : s.fault = none)
    (hd : decode s.cmd = .command i rest) : step s = exec i s := by
  simp only [step, hf, hd]

/-- Settles O6, by what the step and the decoder do with a whole command. -/
theorem stepRunsDecodedCommand : Obligations.StepRunsDecodedCommand :=
  fun _ _ _ hf hd => ⟨step_of_decode hf hd, drop_words_of_decode hd⟩

/-- Settles O7: the stream decodes to its first command, and the effect of a ready command drops that command's
words from CMD and leaves the fault as it is. -/
theorem streamsRunInOrder : Obligations.StreamsRunInOrder := by
  intro i is s t hwf hf hcmd hready hexec
  have hd : decode s.cmd = .command i (wordsOf is) := by
    rw [hcmd, wordsOf_cons, decode_encode_append hwf]
  obtain ⟨hstep, hrest⟩ := stepRunsDecodedCommand s i _ hf hd
  refine ⟨hstep.trans hexec, ?_⟩
  rw [exec_of_ready hready] at hexec
  cases hexec
  rw [effectOf_cmd, effectOf_fault]
  exact ⟨hrest, hf⟩

/-- Settles O8: the gathered word is `LE32` of the four bytes, and a word is `LE32` of its own bytes. -/
theorem cmdBytesAreLittleEndian : Obligations.CmdBytesAreLittleEndian :=
  fun w bs => congrArg (· :: cmdWordsOfBytes bs) (le32_of_extract w)

end Sys2Proof.Machine

/-! The two directions of the encoding (30_encoding.md R90 to R97): a command's words, the words that decode to a command, and
the headers of a row, as the decoder and as the table's mask and match read them (O1, O2, O3, O4). -/

namespace Sys2Proof

open Sys2Proof.Machine

/-- Settles O1: the decoder runs on each listed word. -/
theorem vectorWordsDecodeAsListed : Obligations.VectorWordsDecodeAsListed := by
  unfold Obligations.VectorWordsDecodeAsListed
  decide

/-- Settles O2, by the round trip of the encoder over any words behind the command. -/
theorem decodeInvertsEncode : Obligations.DecodeInvertsEncode :=
  fun _ rest hwf => decode_encode_append hwf rest

/-! Words that decode to a command. -/

/-- They are a legal header word, the length words of its row, and the rest. -/
theorem exists_header_of_decode {ws rest : List Word} {i : Instr} (h : decode ws = .command i rest) :
    ∃ (w : Word) (hd : Header) (vs : List Word), decodeHeader w = some hd ∧ vs.length = hd.row.lengthWords ∧
      ws = w :: (vs ++ rest) ∧ i = hd.command (vs.map BitVec.toNat) := by
  cases ws with
  | nil => cases h
  | cons w ws =>
    simp only [decode] at h
    split at h
    · cases h
    next hd hhd =>
      split at h
      · cases h
      next hlen =>
        cases h
        exact ⟨w, hd, ws.take hd.row.lengthWords, hhd, List.length_take_of_le (Nat.le_of_not_lt hlen),
          by rw [List.take_append_drop], rfl⟩

/-- Settles O3: the command keeps the fields of its header and the length words, and a word is its fields. -/
theorem encodeInvertsDecode : Obligations.EncodeInvertsDecode := by
  intro ws rest i h
  obtain ⟨w, hd, vs, hhd, hlen, rfl, rfl⟩ := exists_header_of_decode h
  obtain ⟨hrsv, hopc, hctx, hctx2, hunused, hunused2⟩ := decodeHeader_some hhd
  obtain ⟨hwf, hheader, hlengths⟩ := Header.command_fields hlen (hctx ▸ field_lt w 8 4)
    (hctx2 ▸ field_lt w 12 4) hunused hunused2
  have hw : w = headerOf hd.ctx2 hd.ctx hd.row.number := by
    rw [hctx2, hctx, hopc]
    exact word_eq_fields w hrsv
  refine ⟨hwf, ?_⟩
  rw [encode, hheader, hlengths, ← hw, List.cons_append]

/-! A header word by its fields. -/

/-- The headers that decode to a row: the converse of `decodeHeader_some` as well. -/
theorem decodeHeader_eq_some_iff {h : Word} {r : Opcode} {c c2 : Nat} :
    decodeHeader h = some { row := r, ctx := c, ctx2 := c2 } ↔
      (field h 16 16 = 0 ∧ (r.usesCtx2 = false → field h 12 4 = 0) ∧ (r.usesCtx = false → field h 8 4 = 0) ∧
        field h 0 8 = r.number) ∧ c = field h 8 4 ∧ c2 = field h 12 4 := by
  constructor
  · intro e
    obtain ⟨hrsv, hopc, rfl, rfl, hunused, hunused2⟩ := decodeHeader_some e
    exact ⟨⟨hrsv, hunused2, hunused, hopc.symm⟩, rfl, rfl⟩
  · rintro ⟨⟨hrsv, hunused2, hunused, hopc⟩, rfl, rfl⟩
    have hw : h = headerOf (field h 12 4) (field h 8 4) r.number := hopc ▸ word_eq_fields h hrsv
    exact (congrArg decodeHeader hw).trans
      (decodeHeader_headerOf (field_lt h 8 4) (field_lt h 12 4) hunused hunused2)

/-- Two words are equal when their four fields are. -/
theorem word_eq_iff_fields {v w : Word} :
    v = w ↔ field v 16 16 = field w 16 16 ∧ field v 12 4 = field w 12 4 ∧ field v 8 4 = field w 8 4 ∧
      field v 0 8 = field w 0 8 := by
  constructor
  · rintro rfl
    exact ⟨rfl, rfl, rfl, rfl⟩
  · intro h
    have := v.isLt
    have := w.isLt
    simp only [field_eq] at h
    exact BitVec.eq_of_toNat_eq (by omega)

/-- A field, read by a shift. -/
theorem toNat_ushiftRight_mod (h : Word) (lo len : Nat) : (h >>> lo).toNat % 2 ^ len = field h lo len := by
  rw [field_eq, BitVec.toNat_ushiftRight, Nat.shiftRight_eq_div_pow]

theorem field_and (h m : Word) (lo len : Nat) : field (h &&& m) lo len = field h lo len &&& field m lo len := by
  rw [field, BitVec.extractLsb'_and, BitVec.toNat_and]
  rfl

/-- A mask keeps a field where it is all ones. -/
theorem field_and_ones {h m : Word} {lo len : Nat} (hm : field m lo len = 2 ^ len - 1) :
    field (h &&& m) lo len = field h lo len := by
  rw [field_and, hm, Nat.and_two_pow_sub_one_eq_mod, Nat.mod_eq_of_lt (field_lt h lo len)]

/-- A mask clears a field where it is zero. -/
theorem field_and_zeros {h m : Word} {lo len : Nat} (hm : field m lo len = 0) : field (h &&& m) lo len = 0 := by
  rw [field_and, hm, Nat.and_zero]

/-! The mask of a row fixes RSV, OPC and the slot fields the row does not use; its match is OPC alone. -/

theorem Opcode.tableMask_rsv (r : Opcode) : field r.tableMask 16 16 = 2 ^ 16 - 1 := by cases r <;> decide
theorem Opcode.tableMask_ctx2 (r : Opcode) :
    field r.tableMask 12 4 = if r.usesCtx2 then 0 else 2 ^ 4 - 1 := by cases r <;> decide
theorem Opcode.tableMask_ctx (r : Opcode) :
    field r.tableMask 8 4 = if r.usesCtx then 0 else 2 ^ 4 - 1 := by cases r <;> decide
theorem Opcode.tableMask_opc (r : Opcode) : field r.tableMask 0 8 = 2 ^ 8 - 1 := by cases r <;> decide

theorem Opcode.tableMatch_fields (r : Opcode) :
    field r.tableMatch 16 16 = 0 ∧ field r.tableMatch 12 4 = 0 ∧ field r.tableMatch 8 4 = 0 ∧
      field r.tableMatch 0 8 = r.number := by cases r <;> decide

/-- A masked slot field is zero exactly when the field is, or the row uses it. -/
theorem field_and_eq_zero_iff {h m : Word} {lo len : Nat} {used : Bool}
    (hm : field m lo len = if used then 0 else 2 ^ len - 1) :
    field (h &&& m) lo len = 0 ↔ (used = false → field h lo len = 0) := by
  cases used with
  | true => simp [field_and_zeros hm]
  | false => simp [field_and_ones hm]

/-- What a row's mask and match say about a header word. -/
theorem and_tableMask_eq_tableMatch_iff {h : Word} {r : Opcode} :
    h &&& r.tableMask = r.tableMatch ↔
      field h 16 16 = 0 ∧ (r.usesCtx2 = false → field h 12 4 = 0) ∧ (r.usesCtx = false → field h 8 4 = 0) ∧
        field h 0 8 = r.number := by
  obtain ⟨hrsv, hctx2, hctx, hopc⟩ := r.tableMatch_fields
  rw [word_eq_iff_fields, hrsv, hctx2, hctx, hopc, field_and_ones r.tableMask_rsv,
    field_and_ones r.tableMask_opc, field_and_eq_zero_iff r.tableMask_ctx2, field_and_eq_zero_iff r.tableMask_ctx]

/-- Settles O4: decoder and table say the same about the fields of the word. -/
theorem headerDecodesByTableRow : Obligations.HeaderDecodesByTableRow := by
  intro h row c c2
  have hctx : (h >>> 8).toNat % 16 = field h 8 4 := toNat_ushiftRight_mod h 8 4
  have hctx2 : (h >>> 12).toNat % 16 = field h 12 4 := toNat_ushiftRight_mod h 12 4
  rw [decodeHeader_eq_some_iff, and_tableMask_eq_tableMatch_iff, hctx, hctx2]

end Sys2Proof

/-! Faults that the header word alone raises (30_encoding.md R95, R97; O5, O38). -/

namespace Sys2Proof

/-! What a row's number says about the fields it uses (30_encoding.md R94). -/

theorem Opcode.number_mem (r : Opcode) : r.number ∈ [1, 2, 3, 4, 5, 6, 7, 8, 9, 16, 17, 18] := by
  cases r <;> decide

theorem Opcode.usesCtx2_of_number {r : Opcode} (h : r.number ∈ [1, 2, 3, 4, 5, 6, 7, 8]) : r.usesCtx2 = false := by
  revert h
  cases r <;> decide

theorem Opcode.uses_of_number {r : Opcode} (h : r.number ∈ [16, 17, 18]) :
    r.usesCtx = false ∧ r.usesCtx2 = false := by
  revert h
  cases r <;> decide

end Sys2Proof

namespace Sys2Proof.Machine

open Sys2Proof

section
variable {s : State} {h : Word} {rest : List Word}

/-- Fault entry that consumes the header word alone, in a core without a fault. -/
theorem State.enterFault_of_header {code : FaultCode} {n : Nat} (hf : s.fault = none) (hcmd : s.cmd = h :: rest)
    (hn : code.wordsConsumed n = 1) :
    s.enterFault code n = { s with cmd := rest, fault := some code } := by
  simp [State.enterFault, State.takeCmd, hf, hcmd, hn]

/-- A core without a fault takes ILLEGAL for a header that does not decode. -/
theorem step_of_illegal (hf : s.fault = none) (hcmd : s.cmd = h :: rest) (hd : decodeHeader h = none) :
    step s = .next { s with cmd := rest, fault := some .illegal } := by
  have hdec : decode s.cmd = .illegal := by simp only [hcmd, decode, hd]
  rw [← State.enterFault_of_header (n := 1) hf hcmd rfl]
  simp only [step, hf, hdec, State.incomplete]

end

/-- Settles O5: a decoded header has RSV = 0, the number of a row as OPC, and 0 in the fields the row does not use; each
cause contradicts one of these. -/
theorem illegalHeaderFaults : Obligations.IllegalHeaderFaults := by
  intro s h rest hf hcmd hcause
  refine step_of_illegal hf hcmd (Option.eq_none_iff_forall_ne_some.2 fun hd hhd => ?_)
  obtain ⟨hrsv, hopc, hctx, hctx2, hunused, hunused2⟩ := decodeHeader_some hhd
  rw [field_eq] at hrsv hopc hctx hctx2
  have hlt := h.isLt
  rw [pow_zero, Nat.div_one] at hopc
  rw [← hopc] at hcause
  rcases hcause with hbad | hbad | ⟨hmem, hbad⟩ | ⟨hmem, hbad⟩
  · omega
  · exact hbad hd.row.number_mem
  · have := hunused2 (Opcode.usesCtx2_of_number hmem)
    omega
  · obtain ⟨hu, hu2⟩ := Opcode.uses_of_number hmem
    have := hunused hu
    have := hunused2 hu2
    omega

/-! BAD_CTX. -/

/-- The slot check fails exactly when a slot field names no slot. -/
theorem State.checkSlots_of_bad {s : State} {ks : List Nat} (h : ∃ k ∈ ks, s.slots.length ≤ k) :
    s.checkSlots ks = some .badCtx := by
  simpa [State.checkSlots] using h

/-- BAD_CTX comes before every other check of a command. -/
theorem State.check_of_bad_slot {s : State} {i : Instr} (h : ∃ k ∈ i.slotFields, s.slots.length ≤ k) :
    s.check i = some .badCtx := by
  have hbad := State.checkSlots_of_bad h
  cases i with
  | initHash | absorb | clone => exact hbad
  | initKeyed | squeeze | encrypt | decrypt | squeezeKey | ratchet =>
    exact (congrArg (· <|> _) hbad).trans rfl
  | pload | pperm | pread => simp [Instr.slotFields] at h

/-- Settles O38: with the length words the command's first check fails, without them the header's. -/
theorem badCtxFaultsFromTheHeaderAlone : Obligations.BadCtxFaultsFromTheHeaderAlone := by
  intro s h rest hd hf hcmd hhd hbad
  rw [← State.enterFault_of_header (n := 1) hf hcmd rfl]
  by_cases hlen : rest.length < hd.row.lengthWords
  · have hdec : decode s.cmd = .waiting hd := by simp only [hcmd, decode, hhd, if_pos hlen]
    simp only [step, hf, hdec, State.incomplete, State.checkSlots_of_bad hbad]
  · have hdec : decode s.cmd = .command (hd.command ((rest.take hd.row.lengthWords).map BitVec.toNat))
        (rest.drop hd.row.lengthWords) := by simp only [hcmd, decode, hhd, if_neg hlen]
    rw [step_of_decode hf hdec, exec_eq_perform,
      perform_of_check (State.check_of_bad_slot (by rwa [Header.command_slotFields]))]
    rfl

end Sys2Proof.Machine

/-! How many bytes a command moves (30_encoding.md R98; O34). -/

namespace Sys2Proof.Machine

open Sys2Proof

/-! The lengths of the outputs. -/

/-- A squeeze gives the bytes it is asked for, chunk by chunk. -/
@[simp] theorem Context.squeezeAny_length (c : Context) (n : Nat) (f : Flag) : (c.squeezeAny n f).1.length = n := by
  induction n using Nat.strong_induction_on generalizing c f with
  | _ n ih =>
    have hpos := c.mode.squeezeRate_pos
    have hle := c.mode.squeezeRate_le
    by_cases h : n ≤ c.mode.squeezeRate
    · rw [Context.squeezeAny_of_le h, Block.first_length _ _ (by omega)]
    · rw [Context.squeezeAny_of_gt (by omega), List.length_append, Block.first_length _ _ (by omega),
        ih _ (by omega)]
      omega

theorem Context.cryptBlock_length (c : Context) (d : Bool) {x : Bytes} (h : x.length ≤ cryptRate) :
    (c.cryptBlock x d).1.length = x.length :=
  Block.mask_length _ _ (h.trans (by decide))

/-- The loop of crypt gives a byte for a byte, chunk by chunk. -/
theorem Context.cryptChunks_length (c : Context) (d : Bool) (x : Bytes) (f : Flag) :
    (c.cryptChunks d (split x cryptRate) f).1.length = x.length := by
  induction hn : x.length using Nat.strong_induction_on generalizing c x f with
  | _ n ih =>
    subst hn
    by_cases h : x.length ≤ cryptRate
    · rw [Context.cryptChunks_of_le h, Context.cryptBlock_length _ _ h]
    · have hrate : 0 < cryptRate := by decide
      have htake : (x.take cryptRate).length = cryptRate := List.length_take_of_le (by omega)
      have hdrop : (x.drop cryptRate).length = x.length - cryptRate := List.length_drop
      rw [Context.cryptChunks_of_gt (by omega), List.length_append, Context.cryptBlock_length _ _ htake.le, htake,
        ih _ (by omega) _ _ _ hdrop]
      omega

@[simp] theorem Context.crypt_length (c : Context) (x : Bytes) (d : Bool) : (c.crypt x d).1.length = x.length :=
  c.cryptChunks_length d x .crypt

/-! The effects of the commands on DIN and DOUT. -/

/-- An effect reads no further byte of DIN. -/
@[simp] theorem effectOf_din (i : Instr) (x : Bytes) (s : State) : (effectOf i x s).din = s.din := by
  cases i <;> simp [effectOf]

/-- A change with output of a slot that exists appends the output to DOUT. -/
theorem State.onSlotOut_dout_append {s : State} {k n : Nat} {f : Context → Bytes × Context}
    (hk : k < s.slots.length) (hf : ∀ c, (f c).1.length = n) :
    ∃ y, (s.onSlotOut k f).dout = s.dout ++ y ∧ y.length = n :=
  ⟨(f s.slots[k]).1, by rw [State.onSlotOut_dout, List.getElem?_eq_getElem hk]; rfl, hf _⟩

/-- An effect appends the listed number of bytes to DOUT. -/
theorem effectOf_dout {i : Instr} {x : Bytes} {s : State} (hslots : ∀ k ∈ i.slotFields, k < s.slots.length)
    (hx : x.length = dinCount i) : ∃ y, (effectOf i x s).dout = s.dout ++ y ∧ y.length = doutCount i := by
  cases i with
  | initHash | initKeyed | absorb | ratchet | clone | pload | pperm =>
    exact ⟨[], by simp [effectOf], rfl⟩
  | squeeze k n | squeezeKey k n =>
    exact State.onSlotOut_dout_append (hslots k (List.mem_singleton_self k)) fun c => c.squeezeAny_length n _
  | encrypt k n | decrypt k n =>
    exact State.onSlotOut_dout_append (hslots k (List.mem_singleton_self k)) fun c => (c.crypt_length x _).trans hx
  | pread => exact ⟨s.p.toList, State.doutWrite_dout .., Vector.length_toList⟩

/-- What a ready command moves: its words, its DIN bytes and its DOUT bytes. -/
theorem exec_moves_of_ready {i : Instr} {s t : State} (hready : s.Ready i) (h : exec i s = .next t) :
    t.din = s.din.drop (dinCount i) ∧ (∃ y : Bytes, t.dout = s.dout ++ y ∧ y.length = doutCount i) ∧
      t.cmd = s.cmd.drop i.words := by
  obtain ⟨hcheck, hdin⟩ := hready
  rw [exec_of_ready ⟨hcheck, hdin⟩] at h
  cases h
  exact ⟨effectOf_din .., effectOf_dout (State.check_slots hcheck) (List.length_take_of_le hdin), effectOf_cmd ..⟩

/-- A command whose check fails moves no byte. -/
theorem exec_moves_of_check {i : Instr} {s t : State} (hcheck : s.check i ≠ none) (h : exec i s = .next t) :
    t.din = s.din ∧ t.dout = s.dout := by
  obtain ⟨code, hcode⟩ := Option.ne_none_iff_exists'.1 hcheck
  rw [exec_eq_perform, perform_of_check hcode] at h
  cases h
  exact ⟨rfl, rfl⟩

/-- Settles O34: what a ready and a failing command move, and the table of R98, which is the definition of the two counts row by row. -/
theorem commandsMoveTheListedByteCounts : Obligations.CommandsMoveTheListedByteCounts :=
  ⟨fun _ _ _ => exec_moves_of_ready, fun _ _ _ => exec_moves_of_check,
    fun _ => ⟨rfl, rfl⟩, fun _ _ _ _ => ⟨rfl, rfl⟩, fun _ _ => ⟨rfl, rfl⟩, fun _ _ => ⟨rfl, rfl⟩,
    fun _ _ => ⟨rfl, rfl⟩, fun _ _ => ⟨rfl, rfl⟩, fun _ _ => ⟨rfl, rfl⟩, fun _ => ⟨rfl, rfl⟩,
    fun _ _ => ⟨rfl, rfl⟩, ⟨rfl, rfl⟩, fun _ => ⟨rfl, rfl⟩, ⟨rfl, rfl⟩⟩

end Sys2Proof.Machine

/-! The permutation (40_permutation.md): rho-east's two forms, the bijection, the listed examples (O10, O11, O12), and the
raw permutation commands (O29, O30, O31). -/

namespace Sys2Proof.Machine

open Sys2Proof

/-! Rho-east on plane C: its byte table (R137) and its word form (R138). -/

/-- Rotation by 8 moves every byte one place up, byte 3 to byte 0. -/
theorem rotl_eight_extract (x : Word) {t : Nat} (ht : t < 4) :
    (rotl x 8).extractLsb' (8 * t) 8 = x.extractLsb' (8 * ((t + 3) % 4)) 8 := by
  apply BitVec.eq_of_getLsbD_eq
  intro i hi
  simp only [BitVec.getLsbD_extractLsb', rotl_get x 8 (8 * t + i) (by decide) (by omega)]
  rw [show (8 * t + i + (32 - 8)) % 32 = 8 * ((t + 3) % 4) + i by omega]

/-- The table T of R137, entry by entry: byte `t` of output lane `k` is byte `t + 3` of input lane `k + 2`. -/
theorem eastTable_getD :
    ∀ k < 4, ∀ t < 4, eastTable.getD (4 * k + t) 0 = 4 * ((k + 2) % 4) + (t + 3) % 4 := by
  decide

/-- Rho-east on plane C in its word form (R138). -/
def rhoEastCWords (w : Planes) : Planes :=
  { w with c := Plane.ofFn fun i => rotl (w.c.get (i + 2)) 8 }

theorem rhoEastCWords_word_c (w : Planes) {k : Nat} (hk : k < 4) :
    (rhoEastCWords w).word (8 + k) = rotl (w.word (8 + (k + 2) % 4)) 8 := by
  interval_cases k <;> rfl

theorem rhoEastCWords_word_ab (w : Planes) {j : Nat} (hj : j < 8) : (rhoEastCWords w).word j = w.word j := by
  interval_cases j <;> rfl

theorem rhoEastCBytes_get_ab (s : Block) {i : Nat} (hi : i < 32) : (rhoEastCBytes s)[i] = s[i] := by
  simp [rhoEastCBytes, Nat.not_le.2 hi]

theorem rhoEastCBytes_get_c (s : Block) {k t : Nat} (hk : k < 4) (ht : t < 4) :
    (rhoEastCBytes s)[4 * (8 + k) + t] = s[4 * (8 + (k + 2) % 4) + (t + 3) % 4] := by
  have hT : 32 + eastTable.getD (4 * (8 + k) + t - 32) 0 = 4 * (8 + (k + 2) % 4) + (t + 3) % 4 := by
    rw [show 4 * (8 + k) + t - 32 = 4 * k + t by omega, eastTable_getD k hk t ht]
    omega
  simp only [rhoEastCBytes, Vector.getElem_ofFn, hT]
  rw [if_pos (by omega), List.getD_eq_getElem _ _ (by simp; omega), Vector.getElem_toList]

theorem rhoEastCBytes_bytes (w : Planes) : rhoEastCBytes w.bytes = (rhoEastCWords w).bytes := by
  ext i hi
  by_cases hab : i < 32
  · rw [rhoEastCBytes_get_ab _ hab, Planes.bytes_get _ _ hi, Planes.bytes_get _ _ hi,
      rhoEastCWords_word_ab w (by omega)]
  · obtain ⟨k, t, hk, ht, rfl⟩ : ∃ k t, k < 4 ∧ t < 4 ∧ i = 4 * (8 + k) + t :=
      ⟨i / 4 - 8, i % 4, by omega, by omega, by omega⟩
    rw [rhoEastCBytes_get_c _ hk ht, Planes.bytes_get_word _ _ _ (by omega) (by omega),
      Planes.bytes_get_word _ _ _ (by omega) ht, rhoEastCWords_word_c w hk, rotl_eight_extract _ ht]

/-- `LE32` of a word's bytes rotated one place (R138). -/
theorem le32_rotl_eight (x : Word) :
    le32 (x.extractLsb' 24 8) (x.extractLsb' 0 8) (x.extractLsb' 8 8) (x.extractLsb' 16 8) = rotl x 8 := by
  have hbyte := fun t ht => rotl_eight_extract x (t := t) ht
  rw [← le32_of_extract (rotl x 8)]
  congr 1
  · exact (hbyte 0 (by decide)).symm
  · exact (hbyte 1 (by decide)).symm
  · exact (hbyte 2 (by decide)).symm
  · exact (hbyte 3 (by decide)).symm

/-- Settles O10: rho-east on plane C byte by byte is `rhoEastCBytes_bytes`, and the rule's example is the bytes of word 10. -/
theorem rhoEastByteAndWordFormsAgree : Obligations.RhoEastByteAndWordFormsAgree := by
  refine fun w => ⟨rhoEastCBytes_bytes w, fun i => Plane.get_ofFn _ i, ?_⟩
  rw [Planes.bytes_get, Planes.bytes_get, Planes.bytes_get, Planes.bytes_get]
  exact le32_rotl_eight (w.c.get 2)

/-! Every part of the round is injective (R131 to R139), so `permute` is a bijection (R142). -/

/-- Word views are equal where their planes have equal lanes. -/
theorem Planes.eq_iff_get {v w : Planes} :
    v = w ↔ ∀ i, v.a.get i = w.a.get i ∧ v.b.get i = w.b.get i ∧ v.c.get i = w.c.get i := by
  refine ⟨fun h i => h ▸ ⟨rfl, rfl, rfl⟩, fun h => ?_⟩
  have ha : v.a = w.a := Plane.ext_get fun i => (h i).1
  have hb : v.b = w.b := Plane.ext_get fun i => (h i).2.1
  have hc : v.c = w.c := Plane.ext_get fun i => (h i).2.2
  cases v
  cases w
  simp_all

/-- Chi on one column of words, applied twice, gives back the first word. -/
theorem chi_word_twice (x y z : Word) :
    (x ^^^ (~~~y &&& z)) ^^^ (~~~(y ^^^ (~~~z &&& x)) &&& (z ^^^ (~~~x &&& y))) = x := by
  ext i hi
  simp only [BitVec.getElem_xor, BitVec.getElem_and, BitVec.getElem_not]
  cases x[i] <;> cases y[i] <;> cases z[i] <;> rfl

theorem chi_involutive : Function.Involutive chi := fun w => by
  refine Planes.eq_iff_get.2 fun i => ?_
  simp only [chi, Plane.get_ofFn]
  exact ⟨chi_word_twice .., chi_word_twice .., chi_word_twice ..⟩

theorem rhoWest_injective : Function.Injective rhoWest := fun v w h => by
  have hlane := Planes.eq_iff_get.1 h
  simp only [rhoWest, Plane.get_ofFn] at hlane
  refine Planes.eq_iff_get.2 fun i => ⟨(hlane i).1, ?_, rotl_inj (by decide) (hlane i).2.2⟩
  have hb := (hlane (i + 1)).2.1
  rwa [show i + 1 + 3 = i by omega] at hb

theorem rhoEast_injective : Function.Injective rhoEast := fun v w h => by
  have hlane := Planes.eq_iff_get.1 h
  simp only [rhoEast, Plane.get_ofFn] at hlane
  refine Planes.eq_iff_get.2 fun i => ⟨(hlane i).1, rotl_inj (by decide) (hlane i).2.1, ?_⟩
  have hc := rotl_inj (by decide) (hlane (i + 2)).2.2
  rwa [show i + 2 + 2 = i by omega] at hc

theorem iota_involutive (rc : Word) : Function.Involutive (iota rc) := fun w => by
  simp [iota]

/-- A bit array in which every bit is the sum of the bits at offsets `u` and `v` is, for every `k`, one in which every bit
is the sum of those at offsets `2 ^ k • u` and `2 ^ k • v`: squaring `u + v` cancels the cross terms. -/
theorem two_taps_doubled {G : Type} [AddCommGroup G] {D : G → Bool} {u v : G}
    (h : ∀ x, D x = (D (x + u) ^^ D (x + v))) (k : Nat) (x : G) :
    D x = (D (x + 2 ^ k • u) ^^ D (x + 2 ^ k • v)) := by
  induction k generalizing x with
  | zero => simpa using h x
  | succ k ih =>
    have hdouble (y : G) : x + 2 ^ (k + 1) • y = x + 2 ^ k • y + 2 ^ k • y := by
      rw [pow_succ, mul_two, add_smul, add_assoc]
    rw [ih x, ih (x + 2 ^ k • u), ih (x + 2 ^ k • v), add_right_comm x (2 ^ k • u) (2 ^ k • v), hdouble u, hdouble v]
    generalize D (x + 2 ^ k • v + 2 ^ k • u) = cross
    cases cross <;> simp

/-- The parity plane of theta (R131). -/
def Planes.parity (w : Planes) : Plane := Plane.ofFn fun i => w.a.get i ^^^ w.b.get i ^^^ w.c.get i

/-- What theta adds to each plane, from the parity plane (R131). -/
def Plane.spread (p : Plane) : Plane := Plane.ofFn fun i => rotl (p.get (i + 3)) 5 ^^^ rotl (p.get (i + 3)) 14

theorem theta_get (w : Planes) (i : Fin 4) :
    (theta w).a.get i = w.a.get i ^^^ w.parity.spread.get i ∧
    (theta w).b.get i = w.b.get i ^^^ w.parity.spread.get i ∧
    (theta w).c.get i = w.c.get i ^^^ w.parity.spread.get i :=
  ⟨Plane.get_ofFn .., Plane.get_ofFn .., Plane.get_ofFn ..⟩

/-- Adding one word to three words adds it once to their sum. -/
theorem xor_word_thrice (a b c e : Word) : (a ^^^ e) ^^^ (b ^^^ e) ^^^ (c ^^^ e) = a ^^^ b ^^^ c ^^^ e := by
  ext i hi
  simp only [BitVec.getElem_xor]
  cases e[i] <;> simp

/-- Theta adds to the parity plane what it adds to each plane. -/
theorem parity_theta_get (w : Planes) (i : Fin 4) :
    (theta w).parity.get i = w.parity.get i ^^^ w.parity.spread.get i := by
  obtain ⟨ha, hb, hc⟩ := theta_get w i
  have hparity (v : Planes) : v.parity.get i = v.a.get i ^^^ v.b.get i ^^^ v.c.get i := Plane.get_ofFn ..
  rw [hparity (theta w), ha, hb, hc, hparity w, xor_word_thrice]

/-- Bit `j` of lane `i` of a plane. -/
def Plane.bit (p : Plane) (x : Fin 4 × Fin 32) : Bool := (p.get x.1).getLsbD x.2

theorem Plane.ext_bit {p q : Plane} (h : ∀ x, p.bit x = q.bit x) : p = q :=
  Plane.ext_get fun i => BitVec.eq_of_getLsbD_eq fun j hj => h (i, ⟨j, hj⟩)

/-- Rotation by 5 and 14 from the lane before, as offsets of a bit's place. -/
theorem Plane.spread_bit (p : Plane) (x : Fin 4 × Fin 32) :
    p.spread.bit x = (p.bit (x + (3, 27)) ^^ p.bit (x + (3, 18))) := by
  obtain ⟨i, j⟩ := x
  simp only [Plane.bit, Plane.spread, Plane.get_ofFn, BitVec.getLsbD_xor, rotl_get _ _ _ (by decide : 5 < 32) j.isLt,
    rotl_get _ _ _ (by decide : 14 < 32) j.isLt]
  rfl

/-- An equation between two sums of three bits, with its columns paired. -/
theorem xor_transpose : ∀ a b c d e f : Bool, (a ^^ (b ^^ c)) = (d ^^ (e ^^ f)) → (a ^^ d) = ((b ^^ e) ^^ (c ^^ f)) := by
  decide

/-- A plane plus its spread determines the plane: the difference of two solutions is its own spread, so by doubling five
times every bit of it is the sum of one bit with itself. -/
theorem Plane.add_spread_injective {p q : Plane}
    (h : ∀ i, p.get i ^^^ p.spread.get i = q.get i ^^^ q.spread.get i) : p = q := by
  have htaps : ∀ x, (p.bit x ^^ q.bit x) =
      ((p.bit (x + (3, 27)) ^^ q.bit (x + (3, 27))) ^^ (p.bit (x + (3, 18)) ^^ q.bit (x + (3, 18)))) := fun x => by
    have hbit : (p.bit x ^^ p.spread.bit x) = (q.bit x ^^ q.spread.bit x) := by
      simpa only [Plane.bit, BitVec.getLsbD_xor] using congrArg (fun y : Word => y.getLsbD x.2) (h x.1)
    rw [Plane.spread_bit, Plane.spread_bit] at hbit
    exact xor_transpose _ _ _ _ _ _ hbit
  refine Plane.ext_bit fun x => ?_
  have h32 := two_taps_doubled (D := fun x => p.bit x ^^ q.bit x) htaps 5 x
  rw [show 2 ^ 5 • ((3, 27) : Fin 4 × Fin 32) = 0 by decide, show 2 ^ 5 • ((3, 18) : Fin 4 × Fin 32) = 0 by decide] at h32
  simpa using h32

theorem theta_injective : Function.Injective theta := fun v w h => by
  have hparity : v.parity = w.parity := Plane.add_spread_injective fun i => by
    rw [← parity_theta_get, ← parity_theta_get, h]
  refine Planes.eq_iff_get.2 fun i => ?_
  simpa [theta_get, hparity] using Planes.eq_iff_get.1 h i

theorem round_injective (rc : Word) : Function.Injective (round rc) :=
  rhoEast_injective.comp <| chi_involutive.injective.comp <| (iota_involutive rc).injective.comp <|
    rhoWest_injective.comp theta_injective

theorem roundsFrom_injective (r k : Nat) : Function.Injective (roundsFrom r k) := by
  induction k generalizing r with
  | zero => exact Function.injective_id
  | succ k ih => exact (ih (r + 1)).comp (round_injective _)

theorem permute_injective : Function.Injective permute :=
  have hbytes : Function.Injective Planes.bytes := Function.LeftInverse.injective Planes.planes_bytes
  have hplanes : Function.Injective Block.planes := Function.LeftInverse.injective Block.bytes_planes
  hbytes.comp ((roundsFrom_injective 0 12).comp hplanes)

theorem Block.finite : Finite Block :=
  Finite.of_injective (fun (s : Block) (i : Fin 48) => s[i]) fun _ _ h => Vector.ext fun i hi => congrFun h ⟨i, hi⟩

/-- Settles O11: `permute` is injective, each of its parts being so, and there are finitely many 48-byte states. -/
theorem permuteIsBijection : Obligations.PermuteIsBijection :=
  haveI := Block.finite
  Finite.injective_iff_bijective.1 permute_injective

/-- Settles O12, by evaluation of the round and of the permutation. -/
theorem permuteOfZeroIsTheListedState : Obligations.PermuteOfZeroIsTheListedState :=
  ⟨by decide, by decide +kernel⟩

/-! The raw permutation commands (R144 to R146). -/

theorem Block.ofBytes_toList (p : Block) : Block.ofBytes p.toList = p := by
  ext i hi
  simp [Block.ofBytes]

theorem permuteTimes_eq_iterate (n : Nat) : permuteTimes n = permute^[n] := by
  induction n with
  | zero => rfl
  | succ n ih => rw [Function.iterate_succ, ← ih]; rfl

/-- Settles O29: PLOAD is ready, and the 48 bytes it takes are those of the block. -/
theorem ploadTakesFortyEightBytes : Obligations.PloadTakesFortyEightBytes := by
  intro s p rest hdin
  have hlen : p.toList.length = 48 := Vector.length_toList
  have hready : s.Ready .pload := ⟨rfl, by simp [hdin, dinCount]⟩
  rw [exec_of_ready hready]
  show Host.Outcome.next
    { s with p := Block.ofBytes (s.din.take 48), din := s.din.drop 48, cmd := s.cmd.drop 1 } = _
  rw [hdin, List.take_left' hlen, List.drop_left' hlen, Block.ofBytes_toList]

/-- Settles O30: PPERM is always ready, and `permuteTimes` is the iterate. -/
theorem ppermIteratesThePermutation : Obligations.PpermIteratesThePermutation := fun s count => by
  rw [exec_of_ready ⟨rfl, Nat.zero_le _⟩, ← permuteTimes_eq_iterate]
  rfl

/-- Settles O31: PREAD is always ready, and its effect is the write to DOUT. -/
theorem preadWritesTheRawRegister : Obligations.PreadWritesTheRawRegister := fun s => by
  rw [exec_of_ready ⟨rfl, Nat.zero_le _⟩]
  rfl

end Sys2Proof.Machine

/-! The duplex primitives byte by byte and flag by flag, the chunks of a string, and squeezes of different lengths (O13 to O17). -/

namespace Sys2Proof.Machine

open Sys2Proof

/-! `up` in each mode (41_duplex_primitives.md R172). -/

theorem Context.up_of_hash {c : Context} (h : c.mode = .hash) (f : Flag) :
    c.up f = { c with s := permute c.s, phase := .up } := by
  simp only [Context.up, Context.upFlag, h]

theorem Context.up_of_keyed {c : Context} (h : c.mode = .keyed) (f : Flag) :
    c.up f = { c with s := permute (c.s.xorAt 47 f.byte), phase := .up } := by
  simp only [Context.up, Context.upFlag, h]

/-- `up` does not read PHASE. -/
theorem Context.up_with_phase (c : Context) (f : Flag) (ph : Phase) : ({ c with phase := ph } : Context).up f = c.up f := by
  obtain ⟨s, phase, mode⟩ := c
  cases mode <;> rfl

/-- Settles O14, from the form of `up` in each mode. -/
theorem upFlagsThenPermutes : Obligations.UpFlagsThenPermutes := by
  refine fun c f => ⟨c.up_phase f, c.up_mode f, fun h => ?_, fun h => ?_, c.up_with_phase f⟩
  · rw [Context.up_of_hash h]
  · rw [Context.up_of_keyed h, Block.xorAt_eq_set _ _ _ (by decide)]

/-! `down` and its flag (41_duplex_primitives.md R171). -/

theorem Mode.downFlag_eq (m : Mode) (f : Flag) : m.downFlag f = if m = .hash then f.byte &&& 0x01 else f.byte := by
  cases m <;> rfl

@[simp] theorem Mode.downFlag_zero (m : Mode) : m.downFlag .zero = 0#8 := by cases m <;> rfl

/-- In Hash mode the masked flag is 0 for every flag but Absorb: no other value is odd. -/
theorem Mode.downFlag_hash_of_ne {f : Flag} (h : f ≠ .absorb) : Mode.hash.downFlag f = 0#8 := by
  cases f with
  | absorb => exact absurd rfl h
  | zero | absorbKey | ratchet | squeezeKey | squeeze | crypt => rfl

/-- Settles O13, by the place of the byte: in the block, at its end, at the flag's index 47, which a block of at most 44
bytes and its pad do not reach, or elsewhere. -/
theorem downXorsBlockPadAndFlag : Obligations.DownXorsBlockPadAndFlag := by
  intro c x f hx
  refine ⟨c.down_phase x f, c.down_mode x f, fun i hi => ?_⟩
  have hlen : x.length ≤ 44 := hx.trans c.mode.absorbRate_le
  rw [Context.down_get, ← Mode.downFlag_eq]
  by_cases hblock : i < x.length
  · rw [dif_pos hblock, if_neg (by omega), if_neg (by omega), List.getD_eq_getElem _ _ hblock]
  · have hbeyond : x.getD i 0 = 0#8 := List.getD_eq_default _ _ (Nat.le_of_not_lt hblock)
    rw [dif_neg hblock, hbeyond, BitVec.xor_zero]
    by_cases hpad : i = x.length
    · rw [if_neg (by omega), if_pos hpad, if_pos hpad]
    · rw [if_neg hpad, if_neg hpad]

/-! Flags in Hash mode (41_duplex_primitives.md R179). -/

theorem Block.xorAt_xorAt (s : Block) (n : Nat) (a b : Byte) : (s.xorAt n a).xorAt n b = s.xorAt n (a ^^^ b) := by
  ext1 i hi
  by_cases h : i = n <;> simp [Block.xorAt_get, h, BitVec.xor_assoc]

/-- The flag of a `down` reaches its result in byte 47 alone. -/
theorem Context.down_flag (c : Context) (x : Bytes) (f : Flag) :
    (c.down x f).s = (c.down x .zero).s.xorAt 47 (c.mode.downFlag f) := by
  simp only [Context.down, Block.xorAt_xorAt, Mode.downFlag_zero, BitVec.zero_xor]

/-- A `down` reads the flag only through its masked value. -/
theorem Context.down_congr_flag {c : Context} {f g : Flag} (h : c.mode.downFlag f = c.mode.downFlag g) (x : Bytes) :
    c.down x f = c.down x g := by
  simp only [Context.down, h]

/-- A squeeze reads the flag only through its first `up`. -/
theorem Context.squeezeAny_congr_flag {c : Context} {f g : Flag} (h : c.up f = c.up g) (n : Nat) :
    c.squeezeAny n f = c.squeezeAny n g := by
  simp only [Context.squeezeAny, Context.upTo, h]

/-- Settles O16: `up` reads no flag in Hash mode, and `down` reads its low bit, which only Absorb sets. -/
theorem hashModeIgnoresEveryFlagButAbsorb : Obligations.HashModeIgnoresEveryFlagButAbsorb := by
  intro c hc
  have hup (f g : Flag) : c.up f = c.up g := by rw [Context.up_of_hash hc, Context.up_of_hash hc]
  refine ⟨hup, fun x f hf => ?_, fun x _ => ?_, fun n f g => Context.squeezeAny_congr_flag (hup f g) n⟩
  · exact Context.down_congr_flag (by rw [Mode.downFlag_zero, hc, Mode.downFlag_hash_of_ne hf]) x
  · rw [Context.down_flag c x .absorb, hc, Block.xorAt_eq_set _ _ _ (by decide)]
    rfl

/-! The chunks of a string (41_duplex_primitives.md R173). -/

theorem numChunks_pos (n r : Nat) : 0 < numChunks n r := Nat.le_max_left ..

theorem numChunks_eq_ceil {n r : Nat} (hr : 0 < r) (hn : 0 < n) : numChunks n r = (n + r - 1) / r :=
  Nat.max_eq_right ((Nat.le_div_iff_mul_le hr).2 (by omega))

/-- The chunks are those that begin inside the string. -/
theorem lt_numChunks_iff {n r k : Nat} (hr : 0 < r) (hn : 0 < n) : k < numChunks n r ↔ k * r < n := by
  rw [numChunks_eq_ceil hr hn, Nat.lt_iff_add_one_le, Nat.le_div_iff_mul_le hr, Nat.succ_mul]
  omega

theorem split_flatten {r : Nat} (hr : 0 < r) (x : Bytes) : (split x r).flatten = x := by
  induction hn : x.length using Nat.strong_induction_on generalizing x with
  | _ n ih =>
    by_cases h : x.length ≤ r
    · rw [split_of_le hr h, List.flatten_singleton]
    · have hrest := ih (x.drop r).length (by rw [List.length_drop]; omega) (x.drop r) rfl
      rw [split_of_gt hr (by omega), List.flatten_cons, hrest, List.take_append_drop]

/-- Every chunk but the last is full. -/
theorem split_getD_length {x : Bytes} {r k : Nat} (hr : 0 < r) (hx : 0 < x.length) (h : k + 1 < numChunks x.length r) :
    ((split x r).getD k []).length = r := by
  have hend : (k + 1) * r < x.length := (lt_numChunks_iff hr hx).1 h
  rw [Nat.succ_mul] at hend
  rw [split_get _ _ _ (by omega), List.length_take, List.length_drop]
  omega

/-- The end of the string lies in the last chunk. -/
theorem numChunks_bounds {n r : Nat} (hr : 0 < r) (hn : 0 < n) :
    (numChunks n r - 1) * r < n ∧ n ≤ (numChunks n r - 1) * r + r := by
  have hpos := numChunks_pos n r
  refine ⟨(lt_numChunks_iff hr hn).1 (by omega), ?_⟩
  have hend : ¬ numChunks n r * r < n := fun h => Nat.lt_irrefl _ ((lt_numChunks_iff hr hn).2 h)
  rw [← Nat.succ_mul, Nat.succ_eq_add_one, Nat.sub_add_cancel hpos]
  exact Nat.le_of_not_lt hend

/-- The last chunk is all that the others leave. -/
theorem split_getLastD {x : Bytes} {r : Nat} (hr : 0 < r) (hx : 0 < x.length) :
    (split x r).getLastD [] = x.drop ((numChunks x.length r - 1) * r) := by
  have hpos := numChunks_pos x.length r
  obtain ⟨-, hend⟩ := numChunks_bounds hr hx
  have hlast : (split x r).getLastD [] = (split x r).getD (numChunks x.length r - 1) [] := by
    rw [List.getLastD_eq_getLast?, List.getLast?_eq_getElem?, split_length, List.getD_eq_getElem?_getD]
  rw [hlast, split_get _ _ _ (by omega), List.take_of_length_le (by rw [List.length_drop]; omega)]

/-- Settles O15: a non-empty string has a chunk for each multiple of the rate below its length. -/
theorem splitCutsIntoChunks : Obligations.SplitCutsIntoChunks := by
  refine ⟨fun r hr => split_of_le hr (Nat.zero_le r), fun x r hr hne => ?_, fun c x d => rfl⟩
  have hx : 0 < x.length := List.length_pos_iff.2 hne
  obtain ⟨hstart, hend⟩ := numChunks_bounds hr hx
  have hlast : ((split x r).getLastD []).length = x.length - (numChunks x.length r - 1) * r := by
    rw [split_getLastD hr hx, List.length_drop]
  rw [split_length]
  refine ⟨rfl, split_flatten hr x, fun k hk => split_getD_length hr hx hk, ?_, ?_, ?_, fun k hk => split_get x r k hk⟩
  · rw [hlast, numChunks_eq_ceil hr hx, Nat.mul_comm r]
  · omega
  · omega

/-! Shorter and longer squeezes (41_duplex_primitives.md R176). -/

theorem Block.first_take (s : Block) {n m : Nat} (h : n ≤ m) : (s.first m).take n = s.first n := by
  rw [Block.first, List.take_take, Nat.min_eq_left h, Block.first]

/-- Settles O17, by induction on the longer squeeze: both give the same first chunk, or the shorter one ends in it. -/
theorem shorterSqueezeIsPrefix : Obligations.ShorterSqueezeIsPrefix := by
  intro c f n m hnm
  induction m using Nat.strong_induction_on generalizing c f n with
  | _ m ih =>
    have hrate := c.mode.squeezeRate_le
    have hpos := c.mode.squeezeRate_pos
    by_cases hm : m ≤ c.mode.squeezeRate
    · rw [Context.squeezeAny_of_le hm, Context.squeezeAny_of_le (hnm.trans hm), Block.first_take _ hnm]
    have hfull : ((c.up f).s.first c.mode.squeezeRate).length = c.mode.squeezeRate := Block.first_length _ _ (by omega)
    rw [Context.squeezeAny_of_gt (Nat.lt_of_not_le hm)]
    by_cases hn : n ≤ c.mode.squeezeRate
    · rw [Context.squeezeAny_of_le hn, List.take_append_of_le_length (by rw [hfull]; exact hn), Block.first_take _ hn]
    · rw [Context.squeezeAny_of_gt (Nat.lt_of_not_le hn), List.take_append, hfull,
        List.take_of_length_le (by rw [hfull]; omega), ih (m - c.mode.squeezeRate) (by omega) _ _ _ (by omega)]

end Sys2Proof.Machine

/-! The duplex commands (42_duplex_commands.md R200 to R203): their next states, and the PHASE each command leaves
(O20, O22, O23, O28, O35). -/

namespace Sys2Proof.Machine

open Sys2Proof

/-! A command that executes, by the bytes at the head of DIN and the slots it names. -/

/-- A command that passes its checks and finds its bytes at the head of DIN has its effect on them, in the state
without them and without its words. -/
theorem exec_of_din {i : Instr} {s : State} {x rest : Bytes} (hcheck : s.check i = none) (hdin : s.din = x ++ rest)
    (hx : x.length = dinCount i) :
    exec i s = .next (effectOf i x { s with din := rest, cmd := s.cmd.drop i.words }) := by
  have hready : s.Ready i := ⟨hcheck, by simp [hdin, hx]⟩
  rw [exec_of_ready hready, State.consumed, hdin, List.take_left' hx, List.drop_left' hx]

/-- A command that reads no byte of DIN and passes its checks has its effect in the state without its words. -/
theorem exec_of_dinCount_zero {i : Instr} {s : State} (hcheck : s.check i = none) (hdin : dinCount i = 0) :
    exec i s = .next (effectOf i [] { s with cmd := s.cmd.drop i.words }) :=
  exec_of_din hcheck (List.nil_append s.din).symm hdin.symm

theorem State.lt_nctx_of_slot {s : State} {k : Nat} {c : Context} (h : s.slots[k]? = some c) : k < s.slots.length :=
  (List.getElem?_eq_some_iff.1 h).1

theorem State.checkSlots_of_slot {s : State} {k : Nat} {c : Context} (h : s.slots[k]? = some c) :
    s.checkSlots [k] = none :=
  State.checkSlots_eq_none.2 (by simpa using State.lt_nctx_of_slot h)

theorem checkSqueeze_of_pos {n : Nat} (h : 1 ≤ n) : checkSqueeze n = none := if_neg (Nat.ne_of_gt h)

theorem Mode.absorbRate_eq (m : Mode) : m.absorbRate = if m = .hash then 16 else 44 := by cases m <;> rfl

/-- A change with output of a slot that exists replaces its context and appends the output. -/
theorem State.onSlotOut_eq_set {s : State} {k : Nat} {c : Context} (h : s.slots[k]? = some c)
    (f : Context → Bytes × Context) :
    s.onSlotOut k f = { s with slots := s.slots.set k (f c).2, dout := s.dout ++ (f c).1 } := by
  rw [State.onSlotOut_of_slot h, State.onSlot_of_slot h]
  rfl

/-! The next states. -/

/-- Settles O20: INIT_HASH reads no byte, and its effect replaces the slot whatever it holds. -/
theorem initHashConstructsHashObject : Obligations.InitHashConstructsHashObject := by
  intro s k hk
  have hslot : s.slots[k]? = some s.slots[k] := List.getElem?_eq_getElem hk
  have hcheck : s.check (.initHash k) = none := State.checkSlots_of_slot hslot
  rw [exec_of_dinCount_zero hcheck rfl]
  refine congrArg Host.Outcome.next (State.onSlot_of_slot (c := s.slots[k]) ?_ _)
  exact hslot

/-- Settles O22: the slot is checked, the bytes are at the head of DIN, and the rate is that of the slot's mode. -/
theorem absorbTakesDinAtTheModesRate : Obligations.AbsorbTakesDinAtTheModesRate := by
  intro s k len c x rest hslot hdin hx
  have hcheck : s.check (.absorb k len) = none := State.checkSlots_of_slot hslot
  rw [exec_of_din hcheck hdin hx, ← Mode.absorbRate_eq]
  refine congrArg Host.Outcome.next (State.onSlot_of_slot ?_ _)
  exact hslot

/-- Settles O23: a positive LEN passes the second check, and the effect is a change of the slot with output. -/
theorem squeezeWritesOutput : Obligations.SqueezeWritesOutput := by
  intro s k len c hslot hlen
  have hcheck : s.check (.squeeze k len) = none := by
    simp [State.check, State.checkSlots_of_slot hslot, checkSqueeze_of_pos hlen]
  rw [exec_of_dinCount_zero hcheck rfl]
  refine congrArg Host.Outcome.next (State.onSlotOut_eq_set ?_ _)
  exact hslot

/-- Settles O28: both slots are checked, and the source's context takes the place of the destination's. -/
theorem cloneCopiesTheWholeObject : Obligations.CloneCopiesTheWholeObject := by
  intro s d r c hd hsrc
  have hdst : s.slots[d]? = some s.slots[d] := List.getElem?_eq_getElem hd
  have hcheck : s.check (.clone d r) = none :=
    State.checkSlots_eq_none.2 (by simp [hd, State.lt_nctx_of_slot hsrc])
  have hcopy : s.slots.getD r s.slots[d] = c := by rw [List.getD_eq_getElem?_getD, hsrc, Option.getD_some]
  rw [exec_of_dinCount_zero hcheck rfl, ← hcopy]
  refine congrArg Host.Outcome.next (State.onSlot_of_slot ?_ _)
  exact hdst

/-! PHASE after the primitives. -/

/-- Each turn of the squeeze loop ends with an `up`. -/
theorem Context.squeezeMore_phase {c : Context} (h : c.phase = .up) (fuel left : Nat) :
    (c.squeezeMore fuel left).2.phase = .up := by
  induction fuel generalizing c left with
  | zero => exact h
  | succ fuel ih =>
    unfold Context.squeezeMore
    split
    · exact h
    · exact ih (Context.up_phase ..) _

@[simp] theorem Context.squeezeAny_phase (c : Context) (n : Nat) (f : Flag) : (c.squeezeAny n f).2.phase = .up :=
  Context.squeezeMore_phase (Context.up_phase ..) _ _

@[simp] theorem Context.cryptBlock_phase (c : Context) (x : Bytes) (d : Bool) : (c.cryptBlock x d).2.phase = .down :=
  Context.down_phase ..

/-- Each turn of the crypt loop ends with a `down`. -/
theorem Context.cryptChunks_phase (c : Context) (d : Bool) (xs : List Bytes) (f : Flag)
    (h : xs ≠ [] ∨ c.phase = .down) : (c.cryptChunks d xs f).2.phase = .down := by
  induction xs generalizing c f with
  | nil => simpa [Context.cryptChunks] using h
  | cons x xs ih => exact ih _ _ (.inr (Context.cryptBlock_phase ..))

theorem split_ne_nil (x : Bytes) (r : Nat) : split x r ≠ [] :=
  List.ne_nil_of_length_pos (split_length x r ▸ numChunks_pos ..)

/-- crypt runs at least one turn, even on the empty string. -/
@[simp] theorem Context.crypt_phase (c : Context) (x : Bytes) (d : Bool) : (c.crypt x d).2.phase = .down :=
  Context.cryptChunks_phase _ _ _ _ (.inl (split_ne_nil x cryptRate))

@[simp] theorem Context.construct_phase (m : Mode) : (Context.construct m).phase = .up := rfl

@[simp] theorem Context.ratchet_phase (c : Context) : c.ratchet.phase = .down := Context.absorbAny_phase ..

@[simp] theorem Context.keyedFrom_phase (x : Bytes) (klen idlen clen : Nat) :
    (Context.keyedFrom x klen idlen clen).phase = .down := by
  unfold Context.keyedFrom
  split <;> exact Context.absorbAny_phase ..

/-! PHASE after the commands. -/

/-- What a slot holds after its change is the change of what it held. -/
theorem State.exists_of_onSlot_same {s : State} {k : Nat} {f : Context → Context} {c : Context}
    (h : (s.onSlot k f).slots[k]? = some c) : ∃ c₀, s.slots[k]? = some c₀ ∧ f c₀ = c := by
  rwa [State.onSlot_get, if_pos rfl, Option.map_eq_some_iff] at h

theorem State.exists_of_onSlotOut_same {s : State} {k : Nat} {f : Context → Bytes × Context} {c : Context}
    (h : (s.onSlotOut k f).slots[k]? = some c) : ∃ c₀, s.slots[k]? = some c₀ ∧ (f c₀).2 = c := by
  rwa [State.onSlotOut_get, if_pos rfl, Option.map_eq_some_iff] at h

/-- Settles O35: the slot holds what the command's effect made of it, and the PHASE of that is the PHASE of the last
primitive run on it. CLONE's source exists, since the command passed its checks. -/
theorem phaseAfterEachCommand : Obligations.PhaseAfterEachCommand := by
  intro i s t k c hready hexec hk hc
  rw [exec_of_ready hready] at hexec
  cases hexec
  cases i with
  | initHash | initKeyed | absorb | ratchet =>
    cases hk
    obtain ⟨c₀, -, rfl⟩ := State.exists_of_onSlot_same hc
    simp [Context.absorbAny_phase]
  | squeeze | encrypt | decrypt | squeezeKey =>
    cases hk
    obtain ⟨c₀, -, rfl⟩ := State.exists_of_onSlotOut_same hc
    simp
  | clone d r =>
    cases hk
    obtain ⟨c₀, -, rfl⟩ := State.exists_of_onSlot_same hc
    have hr : r < s.slots.length := State.check_slots hready.1 r (by simp [Instr.slotFields])
    exact ⟨s.slots[r], List.getElem?_eq_getElem hr, by simp [hr]⟩
  | pload | pperm | pread => trivial

end Sys2Proof.Machine

/-! The keyed commands (43_keyed_commands.md R231 to R236): their checks and their next states (O21, O24, O25, O26, O27). -/

namespace Sys2Proof.Machine

open Sys2Proof

/-! The checks of the keyed commands. -/

/-- A slot that exists passes the MODE check exactly when it is Keyed. -/
theorem State.checkKeyed_eq_none {s : State} {k : Nat} {c : Context} (h : s.slots[k]? = some c) :
    s.checkKeyed k = none ↔ c.mode = .keyed := by
  simp [State.checkKeyed, h]

/-- The two checks that every keyed-only command makes pass exactly on a Keyed slot. -/
theorem State.checkKeyedSlot_eq_none {s : State} {k : Nat} :
    (s.checkSlots [k] <|> s.checkKeyed k) = none ↔ ∃ c, s.slots[k]? = some c ∧ c.mode = .keyed := by
  rw [Option.orElse_eq_none]
  constructor
  · rintro ⟨hslot, hmode⟩
    have hk : k < s.slots.length := State.checkSlots_eq_none.1 hslot k (List.mem_singleton_self k)
    have hget : s.slots[k]? = some s.slots[k] := List.getElem?_eq_getElem hk
    exact ⟨_, hget, (State.checkKeyed_eq_none hget).1 hmode⟩
  · rintro ⟨c, hget, hmode⟩
    exact ⟨State.checkSlots_of_slot hget, (State.checkKeyed_eq_none hget).2 hmode⟩

/-- SQUEEZE_KEY makes the check of its length last. -/
theorem State.check_squeezeKey_eq_none {s : State} {k len : Nat} :
    s.check (.squeezeKey k len) = none ↔ (∃ c, s.slots[k]? = some c ∧ c.mode = .keyed) ∧ 1 ≤ len := by
  rw [← State.checkKeyedSlot_eq_none]
  simp [State.check, checkSqueeze, and_assoc, Nat.one_le_iff_ne_zero]

/-- INIT_KEYED passes its checks exactly on a slot that exists and a legal key (60_exceptions.md R271). -/
theorem State.check_initKeyed_eq_none {s : State} {k klen idlen clen : Nat} :
    s.check (.initKeyed k klen idlen clen) = none ↔ k < s.slots.length ∧ klen ≠ 0 ∧ klen + idlen ≤ 44 := by
  simp [State.check, State.checkSlots_eq_none, checkKeyEmpty, checkKeyLength]

/-- What a keyed-only command that passes its checks acts on. -/
theorem State.keyed_of_check {s : State} {i : Instr} {k : Nat} (hi : keyedOnly i = true) (hk : i.slotFields = [k])
    (h : s.check i = none) : ∃ c, s.slots[k]? = some c ∧ c.mode = .keyed := by
  cases i with
  | encrypt | decrypt | ratchet =>
    cases hk
    exact State.checkKeyedSlot_eq_none.1 h
  | squeezeKey =>
    cases hk
    exact (State.check_squeezeKey_eq_none.1 h).1
  | initHash | initKeyed | absorb | squeeze | clone | pload | pperm | pread => cases hi

/-! The next states. -/

/-- The next state of a command that executes and changes its slot's object. -/
theorem exec_of_onSlot {i : Instr} {s : State} {k : Nat} {c : Context} {f : Context → Context} {x rest : Bytes}
    (heffect : ∀ t, effectOf i x t = t.onSlot k f) (hcheck : s.check i = none) (hslot : s.slots[k]? = some c)
    (hdin : s.din = x ++ rest) (hx : x.length = dinCount i) :
    exec i s = .next { s with slots := s.slots.set k (f c), din := rest, cmd := s.cmd.drop i.words } := by
  rw [exec_of_din hcheck hdin hx, heffect]
  refine congrArg Host.Outcome.next (State.onSlot_of_slot ?_ f)
  exact hslot

/-- The next state of a command that executes and changes its slot's object with output. -/
theorem exec_of_onSlotOut {i : Instr} {s : State} {k : Nat} {c : Context} {f : Context → Bytes × Context}
    {x rest : Bytes} (heffect : ∀ t, effectOf i x t = t.onSlotOut k f) (hcheck : s.check i = none)
    (hslot : s.slots[k]? = some c) (hdin : s.din = x ++ rest) (hx : x.length = dinCount i) :
    exec i s = .next
      { s with
        slots := s.slots.set k (f c).2
        din := rest, dout := s.dout ++ (f c).1, cmd := s.cmd.drop i.words } := by
  rw [exec_of_din hcheck hdin hx, heffect]
  refine congrArg Host.Outcome.next (State.onSlotOut_eq_set ?_ f)
  exact hslot

/-- The object that INIT_KEYED constructs from three strings in a row. -/
theorem Context.keyedFrom_append (key id counter : Bytes) :
    Context.keyedFrom (key ++ id ++ counter) key.length id.length counter.length =
      (let c := (Context.construct .keyed).absorbAny (key ++ id ++ [BitVec.ofNat 8 id.length]) 44 .absorbKey
       if counter.length = 0 then c else c.absorbAny counter 1 .zero) := by
  have hkey : (key ++ id ++ counter).take key.length = key := by simp
  have hid : ((key ++ id ++ counter).drop key.length).take id.length = id := by simp
  have hcounter : ((key ++ id ++ counter).drop (key.length + id.length)).take counter.length = counter := by simp
  simp only [Context.keyedFrom, hkey, hid, hcounter, Nat.pos_iff_ne_zero, ite_not]

/-- Settles O21: a legal key passes the checks, and the key, the id and the counter are the three strings in a row at the
head of DIN. -/
theorem initKeyedAbsorbsKeyMaterial : Obligations.InitKeyedAbsorbsKeyMaterial := by
  rintro s k _ _ _ key id counter rest hk hklen hsum hdin rfl rfl rfl
  have hcheck : s.check (.initKeyed k key.length id.length counter.length) = none :=
    State.check_initKeyed_eq_none.2 ⟨hk, hklen, hsum⟩
  have hcount : (key ++ id ++ counter).length = key.length + id.length + counter.length := by simp [Nat.add_assoc]
  exact ⟨_, exec_of_onSlot (fun _ => rfl) hcheck (List.getElem?_eq_getElem hk) hdin hcount,
    Context.keyedFrom_append .., Context.keyedFrom_phase .., Context.keyedFrom_mode ..⟩

/-- Settles O24: a Keyed slot passes the checks, and the effect is crypt of the bytes at the head of DIN. -/
theorem encryptStreamsCiphertext : Obligations.EncryptStreamsCiphertext := by
  intro s k len c x rest hslot hmode hdin hx
  have hcheck : s.check (.encrypt k len) = none := State.checkKeyedSlot_eq_none.2 ⟨c, hslot, hmode⟩
  exact exec_of_onSlotOut (f := fun c => c.crypt x false) (fun _ => rfl) hcheck hslot hdin hx

/-- Settles O25, as for ENCRYPT with crypt in the decrypting direction. -/
theorem decryptStreamsPlaintext : Obligations.DecryptStreamsPlaintext := by
  intro s k len c x rest hslot hmode hdin hx
  have hcheck : s.check (.decrypt k len) = none := State.checkKeyedSlot_eq_none.2 ⟨c, hslot, hmode⟩
  exact exec_of_onSlotOut (f := fun c => c.crypt x true) (fun _ => rfl) hcheck hslot hdin hx

/-- Settles O26: a Keyed slot and a positive LEN pass the checks, and SQUEEZE_KEY reads no byte of DIN. -/
theorem squeezeKeyWritesOutput : Obligations.SqueezeKeyWritesOutput := by
  intro s k len c hslot hmode hlen
  have hcheck : s.check (.squeezeKey k len) = none := State.check_squeezeKey_eq_none.2 ⟨⟨c, hslot, hmode⟩, hlen⟩
  exact exec_of_onSlotOut (f := fun c => c.squeezeAny len .squeezeKey) (fun _ => rfl) hcheck hslot
    (List.nil_append s.din).symm rfl

/-- RATCHET on a Keyed object, with the numbers of R236. -/
theorem Context.ratchet_of_keyed {c : Context} (h : c.mode = .keyed) :
    c.ratchet = (c.squeezeAny 16 .ratchet).2.absorbAny (c.squeezeAny 16 .ratchet).1 44 .zero := by
  simp only [Context.ratchet, ratchetLength, Context.squeezeAny_mode, h, Mode.absorbRate]

/-- Settles O27: a Keyed slot passes the checks, its absorb rate is 44, and RATCHET reads no byte of DIN. -/
theorem ratchetFeedsBackSixteenBytes : Obligations.RatchetFeedsBackSixteenBytes := by
  intro s k c hslot hmode
  have hcheck : s.check (.ratchet k) = none := State.checkKeyedSlot_eq_none.2 ⟨c, hslot, hmode⟩
  rw [← Context.ratchet_of_keyed hmode]
  exact exec_of_onSlot (fun _ => rfl) hcheck hslot (List.nil_append s.din).symm rfl

end Sys2Proof.Machine

/-! crypt and RATCHET byte by byte, and crypt in its two directions (43_keyed_commands.md R232, R234, R236; O18, O19,
O32). -/

namespace Sys2Proof.Machine

open Sys2Proof

/-! What a block leaves in the bytes it covers. -/

/-- A block below the flag's byte replaces the bytes it covers by their XOR with it. -/
theorem Context.down_get_of_lt (c : Context) {x : Bytes} (f : Flag) {i : Nat} (h : i < x.length) (hi : i < 47) :
    (c.down x f).s[i] = c.s[i] ^^^ x[i] := by
  rw [Context.down_get, if_neg (by omega), if_neg (by omega), List.getD_eq_getElem _ _ h]

theorem Block.mask_getElem (s : Block) {x : Bytes} {i : Nat} (h : i < x.length) (hi : i < 48)
    (hm : i < (s.mask x).length) : (s.mask x)[i] = s[i] ^^^ x[i] :=
  (List.getElem_eq_iff hm).2 (s.mask_get x i h hi)

/-- Masking twice gives the string back. -/
theorem Block.mask_mask (s : Block) {x : Bytes} (h : x.length ≤ 48) : s.mask (s.mask x) = x := by
  have hlen : (s.mask x).length = x.length := s.mask_length x h
  refine List.ext_getElem (by rw [Block.mask_length _ _ (by omega), hlen]) fun i hi hx => ?_
  rw [Block.mask_getElem _ (by omega) (by omega), Block.mask_getElem _ hx (by omega), xor_cancel_left]

/-- Settles O18: `down` XORs the ciphertext into the state bytes that the keystream is made of. In the encrypting
direction the two keystream bytes cancel. -/
theorem cryptTurnLeavesPlaintext : Obligations.CryptTurnLeavesPlaintext := by
  intro c x i hi hx
  refine ⟨?_, c.down_get_of_lt .zero hi (by omega), c.s.mask_get x i hi (by omega)⟩
  have hmask : i < (c.s.mask x).length := by rw [Block.mask_length _ _ (by omega)]; exact hi
  show (c.down (c.s.mask x) .zero).s[i] = x[i]
  rw [Context.down_get_of_lt _ _ hmask (by omega), Block.mask_getElem _ hi (by omega), xor_cancel_left]

/-! RATCHET. -/

/-- The 16 bytes that RATCHET squeezes. -/
theorem Context.ratchet_bytes_length (c : Context) : ((c.up .ratchet).s.first 16).length = 16 :=
  Block.first_length _ _ (by decide)

/-- Squeezing 16 bytes runs one `up`, and absorbing them one `down`. -/
theorem Context.ratchet_eq_down {c : Context} (h : c.mode = .keyed) :
    c.ratchet = (c.up .ratchet).down ((c.up .ratchet).s.first 16) .zero := by
  have hrate : 16 ≤ c.mode.squeezeRate := by rw [h]; decide
  have hfits : ((c.up .ratchet).s.first 16).length ≤ 44 := c.ratchet_bytes_length.le.trans (by decide)
  rw [Context.ratchet_of_keyed h, Context.squeezeAny_of_le hrate, Context.absorbAny_of_le (by decide) hfits,
    Context.ensureUp_of_up (Context.up_phase ..)]

theorem Block.first_getElem (s : Block) {n i : Nat} (hi : i < 48) (h : i < (s.first n).length) :
    (s.first n)[i] = s[i] := by
  simp [Block.first]

/-- Settles O19: the absorbed bytes are the state's own first 16, so they cancel, and the pad falls on byte 16. -/
theorem ratchetErasesTheRate : Obligations.RatchetErasesTheRate := by
  intro c hc
  refine ⟨c.ratchet_phase, c.ratchet_mode.trans hc, fun i hi => ?_⟩
  obtain ⟨-, -, -, hkeyed, -⟩ := upFlagsThenPermutes c .ratchet
  have hperm : permute (c.s.set 47 (c.s[47] ^^^ 0x10)) = (c.up .ratchet).s := (hkeyed hc).symm
  have hlen := c.ratchet_bytes_length
  rw [hperm, Context.ratchet_eq_down hc]
  by_cases hrate : i < 16
  · rw [if_pos hrate, Context.down_get_of_lt _ _ (by omega) (by omega), Block.first_getElem _ hi, BitVec.xor_self]
    rfl
  · have hbeyond : ((c.up .ratchet).s.first 16).getD i 0 = 0#8 := List.getD_eq_default _ _ (by omega)
    simp only [Context.down_get, hlen, hbeyond, BitVec.xor_zero, Mode.downFlag_zero, ite_self, if_neg hrate]

/-! DECRYPT after ENCRYPT. -/

/-- A decrypting turn on the output of an encrypting one gives back the input and the same object: both feed the
ciphertext to `down`. -/
theorem Context.cryptBlock_decrypt_encrypt (c : Context) {x : Bytes} (h : x.length ≤ cryptRate) :
    c.cryptBlock (c.cryptBlock x false).1 true = (x, (c.cryptBlock x false).2) :=
  Prod.ext (c.s.mask_mask (h.trans (by decide))) rfl

/-- The loop of crypt undoes itself chunk by chunk: chunks of plaintext and ciphertext have the same lengths, and after
each chunk the two objects are equal. -/
theorem Context.cryptChunks_decrypt_encrypt (c : Context) (x : Bytes) (f : Flag) :
    c.cryptChunks true (split (c.cryptChunks false (split x cryptRate) f).1 cryptRate) f
      = (x, (c.cryptChunks false (split x cryptRate) f).2) := by
  induction hn : x.length using Nat.strong_induction_on generalizing c x f with
  | _ n ih =>
    subst hn
    have hlen := c.cryptChunks_length false x f
    by_cases h : x.length ≤ cryptRate
    · rw [Context.cryptChunks_of_le (hlen.le.trans h), Context.cryptChunks_of_le h,
        Context.cryptBlock_decrypt_encrypt _ h]
    · have hrate : 0 < cryptRate := by decide
      have htake : (x.take cryptRate).length = cryptRate := List.length_take_of_le (by omega)
      have hblock : (((c.up f).cryptBlock (x.take cryptRate) false).1).length = cryptRate :=
        (Context.cryptBlock_length _ _ htake.le).trans htake
      rw [Context.cryptChunks_of_gt (by omega), Context.cryptChunks_of_gt (x := x) (by omega),
        List.take_left' hblock, List.drop_left' hblock, Context.cryptBlock_decrypt_encrypt _ htake.le,
        ih _ (by rw [List.length_drop]; omega) _ _ _ rfl, List.take_append_drop]

/-- Decrypting what was encrypted gives back the string and leaves the object that the encryption left. -/
theorem Context.crypt_decrypt_encrypt (c : Context) (x : Bytes) :
    c.crypt (c.crypt x false).1 true = (x, (c.crypt x false).2) :=
  c.cryptChunks_decrypt_encrypt x .crypt

/-- Settles O32: ENCRYPT and DECRYPT run crypt on the slot's object, and crypt undoes itself. -/
theorem decryptUndoesEncrypt : Obligations.DecryptUndoesEncrypt := by
  intro s t k len c x rest y rest' hs hc hx hsdin ht htdin hy s' hexec hout
  rw [encryptStreamsCiphertext s k len c x rest hs hc hsdin hx] at hexec
  cases hexec
  have hcipher : (c.crypt x false).1 = y := List.append_cancel_left hout
  have hback : c.crypt y true = (x, (c.crypt x false).2) := hcipher ▸ c.crypt_decrypt_encrypt x
  refine ⟨_, decryptStreamsPlaintext t k len c y rest' ht hc htdin hy, by rw [hback], ?_⟩
  rw [hback, List.getElem?_set_self (State.lt_nctx_of_slot ht), List.getElem?_set_self (State.lt_nctx_of_slot hs)]

end Sys2Proof.Machine

/-! MODE and the key of every Keyed object, along every event (43_keyed_commands.md R230, R237; O46, O47). -/

namespace Sys2Proof.Machine

open Sys2Proof

/-! What an event does to the slots. -/

/-- A step leaves the slots alone, or it is a ready command's effect. -/
theorem step_slots_cases {s t : State} (h : step s = .next t) :
    t.slots = s.slots ∨ ∃ i rest, decode s.cmd = .command i rest ∧ s.Ready i ∧
      t = effectOf i (s.din.take (dinCount i)) (s.consumed i) := by
  rcases step_cases s with ⟨code, -, hs⟩ | ⟨i, rest, -, hd, hs⟩ | ⟨-, -, hs⟩ <;> rw [hs] at h
  · cases h
  · rcases exec_cases h with ⟨code, -, rfl⟩ | ⟨-, -, rfl⟩ | ⟨hready, rfl⟩
    · exact .inl rfl
    · exact .inl rfl
    · exact .inr ⟨i, rest, hd, hready, rfl⟩
  · cases h
    exact .inl (s.incomplete_frame _).1

/-- Of the host's events reset alone touches the slots. -/
theorem State.host_slots {e : HostEvent} (h : e ≠ .reset) (s : State) : (s.host e).slots = s.slots := by
  cases e with
  | reset => exact absurd rfl h
  | writeCmd | writeDin | readDout | readStatus => rfl

theorem State.onSlotOut_slots (s : State) (k : Nat) (f : Context → Bytes × Context) :
    (s.onSlotOut k f).slots = (s.onSlot k fun c => (f c).2).slots :=
  List.ext_getElem? fun j => by rw [State.onSlotOut_get, State.onSlot_get]

/-- The raw commands write no slot. -/
theorem effectOf_slots_of_raw {i : Instr} (h : writtenSlot i = none) (x : Bytes) (s : State) :
    (effectOf i x s).slots = s.slots :=
  List.ext_getElem? fun _ => effectOf_slot (by simp [h]) x s

/-! MODE. -/

/-- A change of a slot's object that keeps MODE changes no slot's MODE. -/
theorem State.onSlot_mode {f : Context → Context} (hf : ∀ c, (f c).mode = c.mode) (s : State) (k j : Nat) :
    (s.onSlot k f).slots[j]?.map Context.mode = s.slots[j]?.map Context.mode := by
  rw [State.onSlot_get]
  split
  · rw [Option.map_map, show Context.mode ∘ f = Context.mode from funext hf]
  · rfl

theorem State.onSlotOut_mode {f : Context → Bytes × Context} (hf : ∀ c, (f c).2.mode = c.mode) (s : State) (k j : Nat) :
    (s.onSlotOut k f).slots[j]?.map Context.mode = s.slots[j]?.map Context.mode := by
  rw [State.onSlotOut_slots, State.onSlot_mode hf]

/-- The commands that put another object in place of a slot's. -/
theorem replaces_of_effectOf_mode_ne {i : Instr} {x : Bytes} {s : State} {k : Nat}
    (h : (effectOf i x s).slots[k]?.map Context.mode ≠ s.slots[k]?.map Context.mode) :
    i = .initHash k ∨ (∃ a b c, i = .initKeyed k a b c) ∨ ∃ r, i = .clone k r := by
  have hwritten : writtenSlot i = some k := by
    by_contra hne
    exact h (by rw [effectOf_slot hne])
  cases i with
  | initHash => cases hwritten; exact .inl rfl
  | initKeyed => cases hwritten; exact .inr (.inl ⟨_, _, _, rfl⟩)
  | clone => cases hwritten; exact .inr (.inr ⟨_, rfl⟩)
  | absorb | ratchet => exact absurd (State.onSlot_mode (by simp) ..) h
  | squeeze | encrypt | decrypt | squeezeKey => exact absurd (State.onSlotOut_mode (by simp) ..) h
  | pload | pperm | pread => cases hwritten

/-- Settles O46: a step that changes a slot is a ready command's effect, and no other command changes MODE; of the host's
events only reset touches a slot. -/
theorem modeChangesOnlyByReplacement : Obligations.ModeChangesOnlyByReplacement := by
  refine ⟨fun s t k h hne => ?_, fun s e k hne => ?_⟩
  · rcases step_slots_cases h with hslots | ⟨i, rest, hd, -, rfl⟩
    · rw [hslots] at hne
      exact absurd rfl hne
    · exact ⟨i, rest, hd, replaces_of_effectOf_mode_ne hne⟩
  · by_contra he
    rw [State.host_slots he] at hne
    exact hne rfl

/-! Every Keyed object began with a key. -/

/-- The invariant speaks of the slots alone. -/
theorem State.KeyedByKey.of_slots {s t : State} (h : s.KeyedByKey) (hslots : t.slots = s.slots) : t.KeyedByKey := by
  rwa [State.KeyedByKey, hslots]

/-- The invariant survives a change of a slot whose result, if Keyed, began with a key. -/
theorem State.KeyedByKey.onSlot {s : State} {k : Nat} {f : Context → Context} (h : s.KeyedByKey)
    (hf : ∀ c ∈ s.slots, (f c).mode = .keyed → KeyDerived (f c)) : (s.onSlot k f).KeyedByKey := by
  intro c hc hmode
  obtain ⟨j, hj⟩ := List.mem_iff_getElem?.1 hc
  by_cases hkj : k = j
  · subst hkj
    obtain ⟨c₀, hc₀, rfl⟩ := State.exists_of_onSlot_same hj
    exact hf c₀ (List.mem_of_getElem? hc₀) hmode
  · rw [State.onSlot_get, if_neg hkj] at hj
    exact h c (List.mem_of_getElem? hj) hmode

/-- The invariant survives a change that keeps MODE and is one of those a Keyed object's history may hold. -/
theorem State.KeyedByKey.onSlot_of_keeps {s : State} {k : Nat} {f : Context → Context} (h : s.KeyedByKey)
    (hmode : ∀ c, (f c).mode = c.mode) (hf : ∀ c, KeyDerived c → KeyDerived (f c)) : (s.onSlot k f).KeyedByKey :=
  h.onSlot fun c hc hm => hf c (h c hc (hmode c ▸ hm))

theorem State.KeyedByKey.onSlotOut_of_keeps {s : State} {k : Nat} {f : Context → Bytes × Context} (h : s.KeyedByKey)
    (hmode : ∀ c, (f c).2.mode = c.mode) (hf : ∀ c, KeyDerived c → KeyDerived (f c).2) :
    (s.onSlotOut k f).KeyedByKey :=
  (h.onSlot_of_keeps hmode hf).of_slots (s.onSlotOut_slots k f)

/-- What CLONE copies is an object of the state. -/
theorem getD_mem_of_mem {cs : List Context} {c : Context} (h : c ∈ cs) (r : Nat) : cs.getD r c ∈ cs := by
  rw [List.getD_eq_getElem?_getD]
  cases hr : cs[r]? with
  | none => exact h
  | some c' => exact List.mem_of_getElem? hr

/-- Every effect keeps the invariant. INIT_KEYED constructs from a legal key, since its checks passed. -/
theorem effectOf_keyedByKey {s : State} {i : Instr} {x : Bytes} (h : s.KeyedByKey) (hcheck : s.check i = none)
    (hx : x.length = dinCount i) : (effectOf i x s).KeyedByKey := by
  cases i with
  | initHash => exact h.onSlot fun _ _ hm => nomatch hm
  | initKeyed k klen idlen clen =>
    obtain ⟨-, hklen, hsum⟩ := State.check_initKeyed_eq_none.1 hcheck
    exact h.onSlot fun _ _ _ => .init x klen idlen clen hklen hsum hx
  | absorb => exact h.onSlot_of_keeps (by simp) fun c => .absorb c x
  | ratchet => exact h.onSlot_of_keeps (by simp) .ratchet
  | squeeze | squeezeKey => exact h.onSlotOut_of_keeps (by simp) fun c => .squeeze c _ _
  | encrypt | decrypt => exact h.onSlotOut_of_keeps (by simp) fun c => .crypt c x _
  | clone d r => exact h.onSlot fun _ hc => h _ (getD_mem_of_mem hc r)
  | pload | pperm | pread => exact h.of_slots (effectOf_slots_of_raw rfl x s)

theorem step_keyedByKey {s t : State} (h : s.KeyedByKey) (hstep : step s = .next t) : t.KeyedByKey := by
  rcases step_slots_cases hstep with hslots | ⟨i, -, -, hready, rfl⟩
  · exact h.of_slots hslots
  · obtain ⟨hcheck, hdin⟩ := hready
    exact effectOf_keyedByKey (s := s.consumed i) h hcheck (List.length_take_of_le hdin)

/-- After reset no object is Keyed. -/
theorem State.resetWith_keyedByKey (n : Nat) : (State.resetWith n).KeyedByKey := by
  intro c hc hm
  cases List.eq_of_mem_replicate hc
  cases hm

theorem State.host_keyedByKey {s : State} (h : s.KeyedByKey) (e : HostEvent) : (s.host e).KeyedByKey := by
  by_cases he : e = .reset
  · subst he
    exact State.resetWith_keyedByKey _
  · exact h.of_slots (State.host_slots he s)

/-- Settles O47: the invariant is kept by every step and every host event, and a keyed-only command that passes its
checks acts on a Keyed slot. -/
theorem keyedObjectsBeganWithAKey : Obligations.KeyedObjectsBeganWithAKey := by
  refine ⟨fun s e h => ?_, fun s i k h hi hk hcheck => ?_⟩
  · cases e with
    | host e => exact State.host_keyedByKey h e
    | core =>
      unfold State.react
      cases hs : step s with
      | next t => exact step_keyedByKey h hs
      | fault r => exact h
      | refused r => exact h
  · obtain ⟨c, hc, hm⟩ := State.keyed_of_check hi hk hcheck
    exact ⟨c, hc, hm, h c (List.mem_of_getElem? hc) hm⟩

end Sys2Proof.Machine

/-! Fault entry, the order of the checks, the faulted core, and the mode check of a stream (60_exceptions.md R271 to R277;
O36, O37, O40, O41, O49, O52). -/

namespace Sys2Proof.Machine

open Sys2Proof

/-! The first failing check. -/

/-- In a list without duplicates, the first element with a property is the one that has it while none before it does. -/
theorem find?_eq_some_iff_take_idxOf {α : Type} [DecidableEq α] {l : List α} {p : α → Bool} {a : α} (hl : l.Nodup)
    (ha : a ∈ l) : l.find? p = some a ↔ p a = true ∧ ∀ b ∈ l.take (l.idxOf a), ¬ p b = true := by
  induction l with
  | nil => cases ha
  | cons x xs ih =>
    obtain ⟨hx, hxs⟩ := List.nodup_cons.1 hl
    by_cases hxa : x = a
    · subst hxa
      simpa using fun _ h => List.find?_some h
    · have hmem : a ∈ xs := (List.mem_cons.1 ha).resolve_left (Ne.symm hxa)
      rw [List.idxOf_cons_ne xs hxa, List.take_succ_cons, List.forall_mem_cons]
      cases hpx : p x with
      | true => simp [hpx, hxa]
      | false => simp [hpx, ih hxs hmem]

/-- ILLEGAL is the decoder's: no command causes it. -/
theorem FaultCode.not_causedBy_illegal (s : State) (i : Instr) : ¬ FaultCode.CausedBy s i .illegal := id

theorem FaultCode.mem_checkOrder (c : FaultCode) : c ∈ checkOrder := by cases c <;> decide

/-- A search looks at the head first. -/
theorem find?_cons_eq_orElse {α : Type} {p : α → Prop} [DecidablePred p] (a : α) (l : List α) :
    (a :: l).find? (fun x => p x) = ((if p a then some a else none) <|> l.find? fun x => p x) := by
  by_cases h : p a <;> simp [h]

/-- The checks of a command's length words, the last ones of R274. -/
def checkLengths : Instr → Option FaultCode
  | .initKeyed _ klen idlen _ => checkKeyEmpty klen <|> checkKeyLength klen idlen
  | .squeeze _ len | .squeezeKey _ len => checkSqueeze len
  | .initHash _ | .absorb _ _ | .encrypt _ _ | .decrypt _ _ | .ratchet _ | .clone _ _ | .pload | .pperm _ | .pread => none

/-- Every command makes its checks in three stages: its slots, its slot's mode, its lengths. -/
theorem State.check_eq_stages (s : State) (i : Instr) :
    s.check i = (s.checkSlots i.slotFields <|>
      (if keyedOnly i = true then s.checkKeyed (i.slotFields.getD 0 0) else none) <|> checkLengths i) := by
  cases i with
  | initHash | absorb | encrypt | decrypt | ratchet | clone =>
    simp [State.check, Instr.slotFields, keyedOnly, checkLengths]
  | initKeyed | squeeze | squeezeKey | pload | pperm | pread => rfl

section
variable (s : State) (i : Instr) [DecidablePred (FaultCode.CausedBy s i)]

/-- The first stage raises BAD_CTX, exactly on its cause. -/
theorem State.checkSlots_eq_ite_caused :
    s.checkSlots i.slotFields = if FaultCode.CausedBy s i .badCtx then some .badCtx else none := by
  split
  · next h => exact State.checkSlots_of_bad h
  · next h => exact State.checkSlots_eq_none.2 (by simpa using h)

/-- The second stage raises MODE, exactly on its cause. -/
theorem State.checkKeyed_eq_ite_caused :
    (if keyedOnly i = true then s.checkKeyed (i.slotFields.getD 0 0) else none) =
      if FaultCode.CausedBy s i .mode then some .mode else none := by
  by_cases hi : keyedOnly i = true
  · rw [if_pos hi, State.checkKeyed]
    split
    · next hs => simp [hi, hs, -List.getD_eq_getElem?_getD]
    · next c hs => cases hm : c.mode <;> simp [hi, hs, hm, -List.getD_eq_getElem?_getD]
  · simp [hi]

/-- The third stage goes through the causes about lengths. -/
theorem checkLengths_eq_find? :
    checkLengths i = [FaultCode.keyEmpty, .keyTooLong, .emptySqueeze].find? fun c => c.CausedBy s i := by
  cases i with
  | initKeyed _ klen idlen =>
    by_cases hempty : klen = 0 <;> by_cases hlong : klen + idlen > 44 <;>
      simp [checkLengths, checkKeyEmpty, checkKeyLength, hempty, hlong]
  | squeeze _ len | squeezeKey _ len =>
    by_cases hlen : len = 0 <;> simp [checkLengths, checkSqueeze, hlen]
  | initHash | absorb | encrypt | decrypt | ratchet | clone | pload | pperm | pread => simp [checkLengths]

/-- The check of a command is the search, in the order of R274, for a code whose cause of R271 holds. -/
theorem State.check_eq_find? : s.check i = checkOrder.find? fun c => c.CausedBy s i := by
  rw [checkOrder, find?_cons_eq_orElse, find?_cons_eq_orElse, find?_cons_eq_orElse,
    if_neg (FaultCode.not_causedBy_illegal s i), s.check_eq_stages, s.checkSlots_eq_ite_caused,
    s.checkKeyed_eq_ite_caused, checkLengths_eq_find? s]
  rfl

end

/-- The code that a check answers has its cause. -/
theorem State.causedBy_of_check {s : State} {i : Instr} {c : FaultCode} (h : s.check i = some c) : c.CausedBy s i := by
  classical
  rw [s.check_eq_find? i] at h
  simpa using List.find?_some h

/-- Settles O37: the check is a search in the order of R274, in which every code stands once. -/
theorem firstFailingCheckIsReported : Obligations.FirstFailingCheckIsReported := by
  classical
  intro i s
  refine ⟨fun c => ?_, ?_⟩
  · rw [s.check_eq_find? i, find?_eq_some_iff_take_idxOf (by decide) c.mem_checkOrder]
    simp only [decide_eq_true_eq]
  · rw [s.check_eq_find? i, List.find?_eq_none]
    simp only [decide_eq_true_eq, FaultCode.mem_checkOrder, forall_const]

/-! Fault entry. -/

/-- A failing check is fault entry. -/
theorem exec_of_check {i : Instr} {s : State} {c : FaultCode} (h : s.check i = some c) :
    exec i s = .next (s.enterFault c i.words) :=
  (exec_eq_perform i s).trans (perform_of_check h)

/-- Settles O36: fault entry consumes the header alone for BAD_CTX, and ILLEGAL is no command's fault. -/
theorem faultingCommandChangesNothingElse : Obligations.FaultingCommandChangesNothingElse := by
  intro i s c hf hcheck
  have hwords : c.wordsConsumed i.words = if c = .badCtx then 1 else i.words := by
    cases c with
    | illegal => exact absurd (State.causedBy_of_check hcheck) (FaultCode.not_causedBy_illegal s i)
    | badCtx | mode | keyEmpty | keyTooLong | emptySqueeze => rfl
  rw [exec_of_check hcheck, State.enterFault, State.takeCmd, hf, hwords]
  rfl

/-! Only the faulted core stops. -/

/-- Every command gives a next state: its fault, its wait, or its effect. -/
theorem exists_exec_eq_next (i : Instr) (s : State) : ∃ t, exec i s = .next t := by
  cases hcheck : s.check i with
  | some c => exact ⟨_, exec_of_check hcheck⟩
  | none =>
    by_cases hdin : s.din.length < dinCount i
    · exact ⟨s, (exec_eq_perform i s).trans (perform_of_short hcheck hdin)⟩
    · exact ⟨_, exec_of_ready ⟨hcheck, Nat.le_of_not_lt hdin⟩⟩

theorem step_of_fault {s : State} {c : FaultCode} (h : s.fault = some c) : step s = .fault (.stopped c) := by
  simp only [step, h]

/-- Settles O40: a core without a fault runs a command or deals with words that are none. -/
theorem onlyAFaultedCoreStops : Obligations.OnlyAFaultedCoreStops := by
  refine ⟨exists_exec_eq_next, fun s hf => ?_, fun s c => step_of_fault⟩
  rcases step_cases s with ⟨c, hc, -⟩ | ⟨i, rest, -, -, hs⟩ | ⟨-, -, hs⟩
  · rw [hf] at hc
    cases hc
  · rw [hs]
    exact exists_exec_eq_next i s
  · exact ⟨_, hs⟩

/-! The faulted core is frozen. -/

/-- What a faulted core `s` can have become before reset: the host has added to CMD and DIN and removed from DOUT. -/
structure State.FrozenTo (s t : State) : Prop where
  fault : t.fault = s.fault
  slots : t.slots = s.slots
  p : t.p = s.p
  cmd : s.cmd <+: t.cmd
  din : s.din <+: t.din
  dout : t.dout <:+ s.dout

theorem State.FrozenTo.refl (s : State) : s.FrozenTo s :=
  ⟨rfl, rfl, rfl, ⟨[], List.append_nil _⟩, ⟨[], List.append_nil _⟩, ⟨[], List.nil_append _⟩⟩

theorem State.FrozenTo.trans {s t u : State} (h : s.FrozenTo t) (h' : t.FrozenTo u) : s.FrozenTo u where
  fault := h'.fault.trans h.fault
  slots := h'.slots.trans h.slots
  p := h'.p.trans h.p
  cmd := h.cmd.trans h'.cmd
  din := h.din.trans h'.din
  dout := h'.dout.trans h.dout

/-- The host's events but reset act on the queues alone. -/
theorem State.host_frozenTo {e : HostEvent} (h : e ≠ .reset) (s : State) : s.FrozenTo (s.host e) := by
  cases e with
  | writeCmd w => exact { State.FrozenTo.refl s with cmd := ⟨[w], rfl⟩ }
  | writeDin b => exact { State.FrozenTo.refl s with din := ⟨[b], rfl⟩ }
  | readDout => exact { State.FrozenTo.refl s with dout := List.drop_suffix .. }
  | readStatus => exact .refl s
  | reset => exact absurd rfl h

/-- One event short of reset, in a faulted core. -/
theorem State.react_frozenTo {s : State} {e : Event} {c : FaultCode} (hc : s.fault = some c) (he : e ≠ .host .reset) :
    s.FrozenTo (s.react e) := by
  cases e with
  | core =>
    simp only [State.react, step_of_fault hc]
    exact .refl s
  | host e => exact State.host_frozenTo (fun h => he (congrArg Event.host h)) s

theorem State.reactAll_frozenTo {s : State} {es : List Event} {c : FaultCode} (hc : s.fault = some c)
    (hes : Event.host .reset ∉ es) : s.FrozenTo (s.reactAll es) := by
  induction es generalizing s with
  | nil => exact .refl s
  | cons e es ih =>
    have hstep : s.FrozenTo (s.react e) := State.react_frozenTo hc (List.ne_of_not_mem_cons hes).symm
    exact hstep.trans (ih (hstep.fault.trans hc) (List.not_mem_of_not_mem_cons hes))

/-- Settles O41: the state after the run is frozen, and what is left of DOUT is its end. -/
theorem faultIsFrozenUntilReset : Obligations.FaultIsFrozenUntilReset := by
  intro es s c hc hes
  obtain ⟨hfault, hslots, hp, ⟨ws, hcmd⟩, ⟨bs, hdin⟩, hdout⟩ := State.reactAll_frozenTo hc hes
  exact ⟨hfault.trans hc, hslots, hp, ⟨ws, hcmd.symm⟩, ⟨bs, hdin.symm⟩, ⟨_, List.suffix_iff_eq_drop.1 hdout⟩⟩

/-! The mode check of a stream. -/

theorem State.modes_getElem? (s : State) (k : Nat) : s.modes[k]? = s.slots[k]?.map Context.mode := List.getElem?_map ..

theorem State.onSlot_modes_of_keeps {f : Context → Context} (hf : ∀ c, (f c).mode = c.mode) (s : State) (k : Nat) :
    (s.onSlot k f).modes = s.modes :=
  List.ext_getElem? fun j => by rw [State.modes_getElem?, State.modes_getElem?, State.onSlot_mode hf]

theorem State.onSlotOut_modes_of_keeps {f : Context → Bytes × Context} (hf : ∀ c, (f c).2.mode = c.mode) (s : State)
    (k : Nat) : (s.onSlotOut k f).modes = s.modes :=
  List.ext_getElem? fun j => by rw [State.modes_getElem?, State.modes_getElem?, State.onSlotOut_mode hf]

/-- A change of a slot to an object of mode `m` sets its mode. -/
theorem State.onSlot_modes_of_mode {f : Context → Context} {m : Mode} (hf : ∀ c, (f c).mode = m) (s : State)
    (k : Nat) : (s.onSlot k f).modes = s.modes.set k m := by
  refine List.ext_getElem? fun j => ?_
  rw [State.modes_getElem?, State.onSlot_get, List.getElem?_set']
  by_cases hkj : k = j
  · subst hkj
    rw [if_pos rfl, if_pos rfl, State.modes_getElem?, Option.map_map, Option.map_eq_map, Option.map_map]
    exact congrArg (Option.map · _) (funext hf)
  · rw [if_neg hkj, if_neg hkj, State.modes_getElem?]

/-- The modes after the effect of a command whose slots exist are those `modesAfter` gives. -/
theorem effectOf_modes {i : Instr} {s : State} (hslots : ∀ k ∈ i.slotFields, k < s.slots.length) (x : Bytes) :
    (effectOf i x s).modes = modesAfter s.modes i := by
  cases i with
  | initHash | initKeyed => exact State.onSlot_modes_of_mode (by simp) ..
  | absorb | ratchet => exact State.onSlot_modes_of_keeps (by simp) ..
  | squeeze | encrypt | decrypt | squeezeKey => exact State.onSlotOut_modes_of_keeps (by simp) ..
  | clone d r =>
    have hr : r < s.slots.length := hslots r (by simp [Instr.slotFields])
    refine State.onSlot_modes_of_mode (fun c => ?_) s d
    simp [State.modes, hr]
  | pload | pperm | pread => exact congrArg (List.map Context.mode) (effectOf_slots_of_raw rfl x s)

/-- A MODE fault is a keyed-only command on a slot in Hash mode. -/
theorem State.hash_of_check_mode {s : State} {i : Instr} (h : s.check i = some .mode) :
    keyedOnly i = true ∧ s.modes[i.slotFields.getD 0 0]? = some .hash := by
  obtain ⟨hkeyed, c, hslot, hmode⟩ := State.causedBy_of_check h
  exact ⟨hkeyed, by rw [State.modes_getElem?, hslot, Option.map_some, hmode]⟩

theorem modeSafe_cons_iff {ms : List Mode} {i : Instr} {is : List Instr} :
    modeSafe ms (i :: is) = true ↔
      (keyedOnly i = true → ms[i.slotFields.getD 0 0]? ≠ some .hash) ∧ modeSafe (modesAfter ms i) is = true := by
  cases h : keyedOnly i <;> simp [modeSafe, h]

/-- Settles O49: the check of the stream excludes the cause of MODE at its head, and `modesAfter` follows the effect. -/
theorem modeSafeStreamsNeverFaultWithMode : Obligations.ModeSafeStreamsNeverFaultWithMode := by
  intro s i is hsafe
  obtain ⟨hhead, hrest⟩ := modeSafe_cons_iff.1 hsafe
  refine ⟨fun hmode => ?_, fun t hready hexec => ?_⟩
  · obtain ⟨hkeyed, hhash⟩ := State.hash_of_check_mode hmode
    exact hhead hkeyed hhash
  · rw [exec_of_ready hready] at hexec
    cases hexec
    have hmodes := effectOf_modes (s := s.consumed i) (State.check_slots hready.1) (s.din.take (dinCount i))
    exact ⟨hmodes, hmodes ▸ hrest⟩

/-! A tick without a command in progress. -/

theorem Stream.tick_of_idle {σ : Stream} (h : σ.busy = none) : σ.tick = σ.fetch := by simp only [Stream.tick, h]

/-- A fetch takes the fault of a command whose check fails. -/
theorem Stream.fetch_of_check {σ : Stream} {i : Instr} {rest : List Word} {c : FaultCode} (hf : σ.core.fault = none)
    (hd : decode σ.core.cmd = .command i rest) (hc : σ.core.check i = some c) :
    σ.fetch = { σ with core := σ.core.enterFault c i.words } := by
  simp only [Stream.fetch, hf, hd, hc]

/-- A fetch deals with words that are no whole command as the step does. -/
theorem Stream.fetch_of_incomplete {σ : Stream} (hf : σ.core.fault = none)
    (hd : ∀ i rest, decode σ.core.cmd ≠ .command i rest) :
    σ.fetch = { σ with core := σ.core.incomplete (decode σ.core.cmd) } := by
  unfold Stream.fetch
  rw [hf]
  cases hdec : decode σ.core.cmd with
  | command i rest => exact absurd hdec (hd i rest)
  | empty | illegal | waiting => rfl

/-- Settles O52, by what a step can do: a whole command fails its checks by hypothesis, and fault entry and incomplete
words are the same in both machines. -/
theorem tickWithoutCommandIsTheStep : Obligations.TickWithoutCommandIsTheStep := by
  intro σ t hbusy hstep hfails
  rw [Stream.tick_of_idle hbusy]
  rcases step_cases σ.core with ⟨c, -, hs⟩ | ⟨i, rest, hf, hd, hs⟩ | ⟨hf, hd, hs⟩ <;> rw [hs] at hstep
  · cases hstep
  · obtain ⟨c, hc⟩ := Option.ne_none_iff_exists'.1 (hfails i rest hd)
    rw [exec_of_check hc] at hstep
    cases hstep
    exact Stream.fetch_of_check hf hd hc
  · cases hstep
    exact Stream.fetch_of_incomplete hf hd

end Sys2Proof.Machine

/-! One tick of the finer machine keeps the state in which the command in progress will end (70_reset_and_hazards.md
R306; O50). -/

namespace Sys2Proof.Machine

open Sys2Proof

/-! What a tick does while a command is in progress. -/

section
variable {σ : Stream} {b : InProgress}

theorem Stream.tick_of_out {y : Byte} {ys : Bytes} (hb : σ.busy = some b) (hout : b.out = y :: ys)
    (hroom : σ.core.dout.length < σ.config.doutDepth) :
    σ.tick = σ.advance (σ.core.doutWrite [y]) { b with out := ys } := by
  simp only [Stream.tick, hb, hout, if_pos hroom]

theorem Stream.tick_of_full (hb : σ.busy = some b) (hout : b.out ≠ [])
    (hfull : ¬ σ.core.dout.length < σ.config.doutDepth) : σ.tick = σ := by
  obtain ⟨y, ys, hout⟩ := List.exists_cons_of_ne_nil hout
  simp only [Stream.tick, hb, hout, if_neg hfull]

theorem Stream.tick_of_engine {e : Engine} (hb : σ.busy = some b) (hout : b.out = []) (he : b.engine = some e) :
    σ.tick = σ.engineStep b e := by
  simp only [Stream.tick, hb, hout, he]

theorem Stream.tick_of_done (hb : σ.busy = some b) (hout : b.out = []) (he : b.engine = none) (htodo : b.todo = []) :
    σ.tick = { σ with busy := none } := by
  simp only [Stream.tick, hb, hout, he, htodo]

theorem Stream.tick_of_work {t : Todo} {ts : List Todo} (hb : σ.busy = some b) (hout : b.out = [])
    (he : b.engine = none) (htodo : b.todo = t :: ts) : σ.tick = σ.workStep b t ts := by
  simp only [Stream.tick, hb, hout, he, htodo]

/-- Everything a tick can do while a command is in progress: move an output byte, wait for space in DOUT, run a round,
complete the command, or do a piece of work. -/
theorem Stream.tick_cases (hb : σ.busy = some b) :
    (∃ y ys, b.out = y :: ys ∧ σ.core.dout.length < σ.config.doutDepth ∧
      σ.tick = σ.advance (σ.core.doutWrite [y]) { b with out := ys }) ∨
    (b.out ≠ [] ∧ ¬ σ.core.dout.length < σ.config.doutDepth ∧ σ.tick = σ) ∨
    (∃ e, b.out = [] ∧ b.engine = some e ∧ σ.tick = σ.engineStep b e) ∨
    (b.out = [] ∧ b.engine = none ∧ b.todo = [] ∧ σ.tick = { σ with busy := none }) ∨
    ∃ t ts, b.out = [] ∧ b.engine = none ∧ b.todo = t :: ts ∧ σ.tick = σ.workStep b t ts := by
  cases hout : b.out with
  | cons y ys =>
    by_cases hroom : σ.core.dout.length < σ.config.doutDepth
    · exact .inl ⟨y, ys, rfl, hroom, Stream.tick_of_out hb hout hroom⟩
    · exact .inr (.inl ⟨List.cons_ne_nil _ _, hroom, Stream.tick_of_full hb (by simp [hout]) hroom⟩)
  | nil =>
    cases he : b.engine with
    | some e => exact .inr (.inr (.inl ⟨e, rfl, rfl, Stream.tick_of_engine hb hout he⟩))
    | none =>
      cases htodo : b.todo with
      | nil => exact .inr (.inr (.inr (.inl ⟨rfl, rfl, rfl, Stream.tick_of_done hb hout he htodo⟩)))
      | cons t ts => exact .inr (.inr (.inr (.inr ⟨t, ts, rfl, rfl, rfl, Stream.tick_of_work hb hout he htodo⟩)))

end

/-! Bytes and words at the ends of the queues that the core does not read from or write to. -/

/-- The state with the bytes `ys` before those of DOUT, the words `ws` behind those of CMD and the bytes `xs` behind
those of DIN. -/
def State.withQueues (ys : Bytes) (ws : List Word) (xs : Bytes) (s : State) : State :=
  { s with cmd := s.cmd ++ ws, din := s.din ++ xs, dout := ys ++ s.dout }

section
variable (ys : Bytes) (ws : List Word) (xs : Bytes) (s : State)

@[simp] theorem State.withQueues_din : (s.withQueues ys ws xs).din = s.din ++ xs := rfl

theorem State.withQueues_doutWrite (y : Bytes) :
    (s.withQueues ys ws xs).doutWrite y = (s.doutWrite y).withQueues ys ws xs := by
  simp [State.withQueues, State.doutWrite]

theorem State.withQueues_onSlot (k : Nat) (f : Context → Context) :
    (s.withQueues ys ws xs).onSlot k f = (s.onSlot k f).withQueues ys ws xs := rfl

theorem State.withQueues_onSlotOut (k : Nat) (f : Context → Bytes × Context) :
    (s.withQueues ys ws xs).onSlotOut k f = (s.onSlotOut k f).withQueues ys ws xs := by
  rw [State.onSlotOut_eq, State.onSlotOut_eq, ← State.withQueues_doutWrite, State.withQueues_onSlot]
  rfl

variable {ys ws xs s}

/-- A read that does not wait gives the same bytes. -/
theorem State.withQueues_dinRead {n : Nat} {x : Bytes} {t : State} (h : s.dinRead n = some (x, t)) :
    (s.withQueues ys ws xs).dinRead n = some (x, t.withQueues ys ws xs) := by
  obtain ⟨hle, rfl, rfl⟩ := State.dinRead_eq_some.1 h
  rw [State.dinRead_of_le (by simp; omega)]
  simp [State.withQueues, List.take_append_of_le_length hle, List.drop_append_of_le_length hle]

end

theorem Stream.withDin_core (σ : Stream) (xs : Bytes) : (σ.withDin xs).core = σ.core.withQueues [] [] xs := by
  simp [Stream.withDin, State.withQueues]

/-! Where the command in progress ends, with the bytes `xs` still to come. -/

theorem Stream.finish_of_busy {σ : Stream} {b : InProgress} (hb : σ.busy = some b) :
    σ.finish = finishAll b.slot b.todo b.scratch ((σ.core.doutWrite b.out).finishEngine b.slot b.engine) := by
  simp only [Stream.finish, hb]

theorem State.finishEngine_slot (s : State) (k r : Nat) :
    s.finishEngine k (some ⟨.slot, r⟩) =
      s.onSlot k fun c => { c with s := c.s.finishRounds r, phase := .up } := rfl

theorem finishAll_of_finish {k : Nat} {t : Todo} {ts : List Todo} {sc sc' : Bytes} {s s' : State}
    (h : t.finish k sc s = some (sc', s')) : finishAll k (t :: ts) sc s = finishAll k ts sc' s' := by
  rw [finishAll_cons, h, Option.bind_some]

/-- The rounds from `r` on are round `r` and the rounds behind it. -/
theorem Block.finishRounds_roundAt {r : Nat} (h : r < 12) (s : Block) :
    (s.roundAt r).finishRounds (r + 1) = s.finishRounds r := by
  rw [Block.finishRounds, Block.finishRounds, Block.roundAt, Planes.planes_bytes, show 12 - r = (12 - (r + 1)) + 1 by omega,
    roundsFrom]

/-- Round 11 is the last. -/
theorem Block.finishRounds_eleven (s : Block) : s.finishRounds 11 = s.roundAt 11 := by
  simp only [Block.finishRounds, Block.roundAt, Nat.reduceSub, roundsFrom]

/-- Twelve rounds are the permutation. -/
theorem Block.finishRounds_zero (s : Block) : s.finishRounds 0 = permute s := rfl

theorem State.withQueues_finishEngine (ys : Bytes) (ws : List Word) (xs : Bytes) (s : State) (k : Nat)
    (e : Option Engine) :
    (s.withQueues ys ws xs).finishEngine k e = (s.finishEngine k e).withQueues ys ws xs := by
  cases e with
  | none => rfl
  | some e =>
    obtain ⟨target, r⟩ := e
    cases target with
    | raw => simp only [State.finishEngine, State.withQueues]
    | slot => simp only [State.finishEngine_slot, State.withQueues_onSlot]

/-- The engine after a round: it rests after round 11. -/
def Engine.next (e : Engine) : Option Engine := if e.round ≥ 11 then none else some { e with round := e.round + 1 }

/-- The rounds that remain after a round lead to the same state. -/
theorem Stream.engineStep_finishEngine {σ : Stream} {b : InProgress} {e : Engine} (hr : e.round < 12) :
    (σ.engineStep b e).core.finishEngine b.slot e.next = σ.core.finishEngine b.slot (some e) := by
  obtain ⟨target, r⟩ := e
  by_cases hlast : 11 ≤ r
  · obtain rfl : r = 11 := by simp at hr; omega
    cases target with
    | raw => simp [Stream.engineStep, Engine.next, State.finishEngine, Block.finishRounds_eleven]
    | slot => simp [Stream.engineStep, Engine.next, State.finishEngine, Block.finishRounds_eleven]
  · cases target with
    | raw => simp [Stream.engineStep, Engine.next, State.finishEngine, hlast, Block.finishRounds_roundAt hr]
    | slot =>
      simp [Stream.engineStep, Engine.next, State.finishEngine, hlast, State.onSlot_onSlot,
        Block.finishRounds_roundAt hr]

section
variable {σ : Stream} {xs : Bytes} {k : Nat} {todo : List Todo} {sc out : Bytes}

/-- A tick that leaves the engine at rest. -/
theorem Stream.advance_finish {s : State} :
    ((σ.advance s ⟨k, todo, none, sc, out⟩).withDin xs).finish =
      finishAll k todo sc ((s.withQueues [] [] xs).doutWrite out) := by
  rw [Stream.finish_of_busy rfl, Stream.withDin_core]
  rfl

/-- A tick that leaves the engine at rest and produces no output. -/
theorem Stream.advance_finish_silent {s : State} :
    ((σ.advance s ⟨k, todo, none, sc, []⟩).withDin xs).finish = finishAll k todo sc (s.withQueues [] [] xs) := by
  rw [Stream.advance_finish, State.doutWrite_nil]

/-- A started `up` is the whole `up` of the command level. -/
theorem Stream.startUp_finish {b : InProgress} {f : Flag} (hout : b.out = []) :
    ((σ.startUp b f todo).withDin xs).finish =
      finishAll b.slot todo b.scratch ((σ.core.withQueues [] [] xs).onSlot b.slot fun c => c.up f) := by
  rw [Stream.finish_of_busy (b := { b with engine := some ⟨.slot, 0⟩, todo := todo }) rfl, Stream.withDin_core]
  simp only [Stream.startUp, hout, State.doutWrite_nil, State.finishEngine_slot, ← State.withQueues_onSlot,
    State.onSlot_onSlot, Context.up_eq_finishRounds]

/-- A round is the first of those that remain. -/
theorem Stream.engineStep_finish {e : Engine} (hr : e.round < 12) :
    ((σ.engineStep ⟨k, todo, some e, sc, []⟩ e).withDin xs).finish =
      finishAll k todo sc ((σ.core.withQueues [] [] xs).finishEngine k (some e)) := by
  have hbusy : ((σ.engineStep ⟨k, todo, some e, sc, []⟩ e).withDin xs).busy = some ⟨k, todo, e.next, sc, []⟩ := rfl
  rw [Stream.finish_of_busy hbusy, Stream.withDin_core, State.doutWrite_nil, State.withQueues_finishEngine,
    State.withQueues_finishEngine]
  exact congrArg (finishAll k todo sc ∘ State.withQueues [] [] xs) (Stream.engineStep_finishEngine hr)

/-- One piece of work: it is done, or it is split into its first chunk and what remains of it, or it waits. -/
theorem Stream.workStep_finish {t : Todo} {ts : List Todo} (hb : σ.busy = some ⟨k, t :: ts, none, sc, []⟩)
    (ht : t.wf = true) :
    ((σ.workStep ⟨k, t :: ts, none, sc, []⟩ t ts).withDin xs).finish =
      finishAll k (t :: ts) sc (σ.core.withQueues [] [] xs) := by
  have hwait : (σ.withDin xs).finish = finishAll k (t :: ts) sc (σ.core.withQueues [] [] xs) := by
    rw [Stream.finish_of_busy (σ := σ.withDin xs) hb, Stream.withDin_core, State.doutWrite_nil]
    rfl
  cases t with
  | construct | copyFrom | pad | feedScratch | saveScratch =>
    rw [finishAll_of_finish rfl]
    exact Stream.advance_finish_silent
  | up f =>
    rw [finishAll_of_finish rfl]
    exact Stream.startUp_finish rfl
  | emit n =>
    rw [finishAll_of_finish rfl, State.onSlotOut_eq, State.onSlot_id]
    exact Stream.advance_finish
  | readRaw =>
    rw [finishAll_of_finish rfl]
    exact Stream.advance_finish
  | squeeze left f =>
    rw [finishAll_squeeze]
    exact Stream.startUp_finish rfl
  | crypt left d f =>
    rw [finishAll_crypt]
    exact Stream.startUp_finish rfl
  | permuteRaw count =>
    cases count with
    | zero =>
      rw [finishAll_of_finish rfl]
      exact Stream.advance_finish_silent
    | succ n =>
      rw [finishAll_of_finish rfl, Stream.finish_of_busy rfl, State.doutWrite_nil, finishAll_of_finish rfl,
        Stream.withDin_core]
      simp only [Stream.workStep, State.finishEngine, Block.finishRounds_zero, permuteTimes]
  | load =>
    simp only [Stream.workStep]
    split
    · exact hwait
    · next hd =>
      rw [finishAll_of_finish (by rw [Todo.finish, State.withQueues_dinRead hd]; rfl)]
      exact Stream.advance_finish_silent
  | cryptChunk n d =>
    simp only [Stream.workStep]
    split
    · exact hwait
    · next hd =>
      rw [finishAll_of_finish (by rw [Todo.finish, State.withQueues_dinRead hd]; rfl), State.onSlotOut_eq]
      exact Stream.advance_finish
  | absorb left tail rate f =>
    have hrate : 0 < rate := by simp [Todo.wf] at ht; omega
    simp only [Stream.workStep]
    split
    · next hph =>
      rw [finishAll_absorb_of_down (s := σ.core.withQueues [] [] xs) hrate hph]
      exact Stream.startUp_finish rfl
    · next hph =>
      split
      · exact hwait
      · next hd =>
        rw [finishAll_absorb_of_up (s := σ.core.withQueues [] [] xs) hrate hph (State.withQueues_dinRead hd)]
        exact Stream.advance_finish_silent

end

/-- Settles O50, by what a tick can do: an output byte goes from the waiting ones to DOUT, a round is the first of those
that remain, and a piece of work is `Stream.workStep_finish`. -/
theorem ticksKeepTheFinalState : Obligations.TicksKeepTheFinalState := by
  intro σ xs hinv hbusy
  obtain ⟨⟨k, todo, engine, sc, out⟩, hb⟩ := Option.ne_none_iff_exists'.1 hbusy
  obtain ⟨htodo, hround⟩ := (InProgress.wf_iff _).1 ((Stream.inv_iff_of_busy hb).1 hinv).1
  have hfinish : (σ.withDin xs).finish =
      finishAll k todo sc (((σ.core.withQueues [] [] xs).doutWrite out).finishEngine k engine) := by
    rw [Stream.finish_of_busy (σ := σ.withDin xs) hb, Stream.withDin_core]
  rcases Stream.tick_cases hb with ⟨y, ys, rfl, -, htick⟩ | ⟨-, -, htick⟩ | ⟨e, rfl, rfl, htick⟩ |
    ⟨rfl, rfl, rfl, htick⟩ | ⟨t, ts, rfl, rfl, rfl, htick⟩ <;> rw [htick]
  · rw [hfinish, Stream.finish_of_busy rfl, Stream.withDin_core]
    simp only [Stream.advance, ← State.withQueues_doutWrite, State.doutWrite_doutWrite, List.singleton_append]
  · rw [hfinish, State.doutWrite_nil]
    exact Stream.engineStep_finish (hround e rfl)
  · rw [hfinish, State.doutWrite_nil, Stream.finish]
    exact congrArg some (Stream.withDin_core _ xs)
  · rw [hfinish, State.doutWrite_nil]
    exact Stream.workStep_finish hb (htodo t (List.mem_cons_self ..))

end Sys2Proof.Machine

/-! The command-level transition that begins when the finer machine takes a command from CMD (20_memory.md R66,
70_reset_and_hazards.md R306; O51). -/

namespace Sys2Proof.Machine

open Sys2Proof

/-! The pieces of work that read DIN, where it holds their bytes. -/

/-- The state without the first `n` bytes of DIN. -/
def State.dropDin (s : State) (n : Nat) : State := { s with din := s.din.drop n }

theorem State.dinRead_eq_dropDin {s : State} {n : Nat} (h : n ≤ s.din.length) :
    s.dinRead n = some (s.din.take n, s.dropDin n) := State.dinRead_of_le h

theorem State.dropDin_onSlot (s : State) (n k : Nat) (f : Context → Context) :
    (s.onSlot k f).dropDin n = (s.dropDin n).onSlot k f := rfl

theorem State.dropDin_dropDin (s : State) (n m : Nat) : (s.dropDin n).dropDin m = s.dropDin (n + m) := by
  simp only [State.dropDin, List.drop_drop]

section
variable {k left : Nat} {ts : List Todo} {sc : Bytes} {s : State}

theorem finishAll_absorb_of_le {tail : Bytes} {rate : Nat} {f : Flag} (h : left ≤ s.din.length) :
    finishAll k (.absorb left tail rate f :: ts) sc s =
      finishAll k ts sc ((s.dropDin left).onSlot k fun c =>
        c.absorbAny (s.din.take left ++ tail) rate f) :=
  finishAll_of_finish (by rw [Todo.finish, State.dinRead_eq_dropDin h]; rfl)

theorem finishAll_crypt_of_le {d : Bool} {f : Flag} (h : left ≤ s.din.length) :
    finishAll k (.crypt left d f :: ts) sc s =
      finishAll k ts sc ((s.dropDin left).onSlotOut k fun c =>
        c.cryptChunks d (split (s.din.take left) cryptRate) f) :=
  finishAll_of_finish (by rw [Todo.finish, State.dinRead_eq_dropDin h]; rfl)

theorem finishAll_cryptChunk_of_le {d : Bool} (h : left ≤ s.din.length) :
    finishAll k (.cryptChunk left d :: ts) sc s =
      finishAll k ts sc ((s.dropDin left).onSlotOut k fun c => c.cryptBlock (s.din.take left) d) :=
  finishAll_of_finish (by rw [Todo.finish, State.dinRead_eq_dropDin h]; rfl)

theorem finishAll_load_of_le (h : 48 ≤ s.din.length) :
    finishAll k (.load :: ts) sc s =
      finishAll k ts sc { s.dropDin 48 with p := Block.ofBytes (s.din.take 48) } :=
  finishAll_of_finish (by rw [Todo.finish, State.dinRead_eq_dropDin h]; rfl)

end

/-! The work a command begins with means what the command means. -/

/-- The object that INIT_KEYED constructs, by the bytes of its two absorptions. -/
theorem Context.keyedFrom_eq (x : Bytes) (klen idlen clen : Nat) :
    Context.keyedFrom x klen idlen clen =
      let c := (Context.construct .keyed).absorbAny (x.take (klen + idlen) ++ [BitVec.ofNat 8 idlen]) 44 .absorbKey
      if clen > 0 then c.absorbAny ((x.drop (klen + idlen)).take clen) 1 .zero else c := by
  rw [Context.keyedFrom, List.take_add]

/-- INIT_KEYED's two absorptions are what it constructs. -/
theorem finishAll_work_initKeyed {s : State} {k klen idlen clen : Nat} (h : klen + idlen + clen ≤ s.din.length) :
    finishAll k (s.work (.initKeyed k klen idlen clen)) [] (s.takeCmd 4) =
      some (effectOf (.initKeyed k klen idlen clen) (s.din.take (klen + idlen + clen))
        (s.consumed (.initKeyed k klen idlen clen))) := by
  have hkey : klen + idlen ≤ s.din.length := Nat.le_of_add_right_le h
  have hcounter : clen ≤ (s.din.drop (klen + idlen)).length := by rw [List.length_drop]; omega
  have hmaterial : (s.din.take (klen + idlen + clen)).take (klen + idlen) = s.din.take (klen + idlen) := by
    rw [List.take_take, Nat.min_eq_left (Nat.le_add_right ..)]
  have hrest : ((s.din.take (klen + idlen + clen)).drop (klen + idlen)).take clen =
      (s.din.drop (klen + idlen)).take clen := by
    rw [List.drop_take, List.take_take, Nat.add_sub_cancel_left, Nat.min_self]
  simp only [State.work, effectOf, Context.keyedFrom_eq, hmaterial, hrest, List.cons_append, List.nil_append]
  rw [finishAll_of_finish rfl, finishAll_absorb_of_le (by exact hkey), State.onSlot_din, State.takeCmd_din]
  split
  · rw [finishAll_absorb_of_le (by exact hcounter)]
    simp only [State.dropDin_onSlot, State.onSlot_onSlot, State.dropDin_dropDin, List.append_nil]
    rfl
  · obtain rfl : clen = 0 := by omega
    simp only [State.dropDin_onSlot, State.onSlot_onSlot]
    rfl

/-- Bytes taken from a slot that exists. -/
theorem State.peek_of_slot {s : State} {k : Nat} {c : Context} (h : s.slots[k]? = some c) (f : Context → Bytes) :
    s.peek k f = f c := by
  simp only [State.peek, h]

/-- The work of a ready command ends in the command's effect. -/
theorem finishAll_work {s : State} {i : Instr} (h : s.Ready i) :
    finishAll (i.slotFields.getD 0 0) (s.work i) [] (s.takeCmd i.words) =
      some (effectOf i (s.din.take (dinCount i)) (s.consumed i)) := by
  obtain ⟨hcheck, hdin⟩ := h
  cases i with
  | initHash | squeeze | squeezeKey | clone | pperm | pread => rfl
  | initKeyed k klen idlen clen => exact finishAll_work_initKeyed hdin
  | encrypt | decrypt => exact finishAll_crypt_of_le hdin
  | pload => exact finishAll_load_of_le hdin
  | absorb k n =>
    rw [State.work, finishAll_absorb_of_le (by exact hdin)]
    refine congrArg some (State.onSlot_congr fun c hc => ?_)
    have hctx : s.contextAt k = c := State.contextAt_of_slot hc
    rw [hctx, List.append_nil]
    rfl
  | ratchet k =>
    rw [State.work, finishAll_of_finish rfl, finishAll_of_finish rfl, finishAll_of_finish rfl, State.onSlot_onSlot,
      State.peek_onSlot]
    obtain ⟨c, hc, hmode⟩ := State.keyed_of_check rfl rfl hcheck
    refine congrArg some (State.onSlot_congr fun c' hc' => ?_)
    obtain rfl : c = c' := Option.some_inj.1 (hc.symm.trans hc')
    rw [Context.ratchet_eq_down hmode, State.peek_of_slot hc']
    rfl

/-- A fetch begins a command that passes its checks. -/
theorem Stream.fetch_of_command {σ : Stream} {i : Instr} {rest : List Word} (hf : σ.core.fault = none)
    (hd : decode σ.core.cmd = .command i rest) (hc : σ.core.check i = none) :
    σ.fetch = { σ with core := σ.core.takeCmd i.words, busy := some (σ.core.begin i) } := by
  simp only [Stream.fetch, hf, hd, hc]

/-- The checks read no byte of DIN. -/
theorem Stream.withDin_check (σ : Stream) (xs : Bytes) (i : Instr) : (σ.withDin xs).core.check i = σ.core.check i := by
  cases i <;> rfl

/-- The work of a command depends on no byte of DIN. -/
theorem Stream.withDin_work (σ : Stream) (xs : Bytes) (i : Instr) : (σ.withDin xs).core.work i = σ.core.work i := by
  cases i <;> rfl

/-- Settles O51: the tick begins the work of the command, which ends in the effect that `exec` has. -/
theorem fetchBeginsTheAtomicTransition : Obligations.FetchBeginsTheAtomicTransition := by
  intro σ xs i rest t hbusy hfault hdecode hready hexec
  have hcheck : σ.core.check i = none := σ.withDin_check xs i ▸ hready.1
  rw [Stream.tick_of_idle hbusy, Stream.fetch_of_command hfault hdecode hcheck]
  rw [exec_of_ready hready] at hexec
  cases hexec
  refine ⟨?_, Option.some_ne_none _⟩
  rw [← finishAll_work hready, Stream.withDin_work, Stream.finish_of_busy rfl, State.begin, State.doutWrite_nil]
  rfl

end Sys2Proof.Machine

/-! What the host does to the queues while a command is in progress (20_memory.md R71, 70_reset_and_hazards.md R300,
R305, R306; O54, O55), and a core whose queues are full or drained (O56, O57). -/

namespace Sys2Proof.Machine

open Sys2Proof

/-! Additions to the queues stay where they are while work is done. -/

section
variable {ys : Bytes} {ws : List Word} {xs : Bytes}

/-- Reads of DIN, with bytes behind it, where the read does not wait or there are none. -/
theorem State.withQueues_dinRead_eq {s : State} {n : Nat} (h : xs = [] ∨ s.dinRead n ≠ none) :
    (s.withQueues ys ws xs).dinRead n = (s.dinRead n).map fun r => (r.1, r.2.withQueues ys ws xs) := by
  cases hd : s.dinRead n with
  | some r => exact State.withQueues_dinRead hd
  | none =>
    obtain rfl : xs = [] := h.resolve_right (by simp [hd])
    rw [State.dinRead_eq_none] at hd
    rw [State.dinRead_eq_none.2 (by simpa using hd)]
    rfl

/-- A piece of work, with additions to the queues, where it does not wait or there are no bytes behind DIN. -/
theorem Todo.finish_withQueues {k : Nat} {t : Todo} {sc : Bytes} {s : State}
    (h : xs = [] ∨ t.finish k sc s ≠ none) :
    t.finish k sc (s.withQueues ys ws xs) = (t.finish k sc s).map fun r => (r.1, r.2.withQueues ys ws xs) := by
  cases t with
  | construct | copyFrom | pad | up | saveScratch | feedScratch | permuteRaw => rfl
  | squeeze | emit => simp only [Todo.finish, State.withQueues_onSlotOut, Option.map_some]
  | readRaw => simp only [Todo.finish, State.withQueues_doutWrite, Option.map_some]; rfl
  | absorb | load =>
    simp only [Todo.finish, ne_eq, Option.map_eq_none_iff] at h ⊢
    rw [State.withQueues_dinRead_eq h, Option.map_map, Option.map_map]
    rfl
  | crypt | cryptChunk =>
    simp only [Todo.finish, ne_eq, Option.map_eq_none_iff] at h ⊢
    rw [State.withQueues_dinRead_eq h, Option.map_map, Option.map_map]
    simp only [Function.comp_def, State.withQueues_onSlotOut]

/-- All remaining work, likewise. -/
theorem finishAll_withQueues {k : Nat} {ts : List Todo} {sc : Bytes} {s : State}
    (h : xs = [] ∨ finishAll k ts sc s ≠ none) :
    finishAll k ts sc (s.withQueues ys ws xs) = (finishAll k ts sc s).map (State.withQueues ys ws xs) := by
  induction ts generalizing sc s with
  | nil => rfl
  | cons t ts ih =>
    rw [finishAll_cons] at h
    have ht : xs = [] ∨ t.finish k sc s ≠ none := h.imp_right fun hne hnone => hne (by rw [hnone]; rfl)
    rw [finishAll_cons, finishAll_cons, Todo.finish_withQueues ht]
    cases hr : t.finish k sc s with
    | none => rfl
    | some r =>
      rw [hr] at h
      exact ih h

/-- The end of the command in progress, with additions to the queues of the core. -/
theorem Stream.finish_withQueues {σ : Stream} (h : xs = [] ∨ σ.finish ≠ none) :
    ({ σ with core := σ.core.withQueues ys ws xs } : Stream).finish = σ.finish.map (State.withQueues ys ws xs) := by
  cases hb : σ.busy with
  | none => simp only [Stream.finish, hb, Option.map_some]
  | some b =>
    simp only [Stream.finish, hb] at h ⊢
    rw [State.withQueues_doutWrite, State.withQueues_finishEngine, finishAll_withQueues h]

end

/-- A core with the bytes `ys` at the front of DOUT ends with them at the front. -/
theorem Stream.finish_of_dout {σ : Stream} {ys zs : Bytes} (h : σ.core.dout = ys ++ zs) :
    σ.finish = ({ σ with core := { σ.core with dout := zs } } : Stream).finish.map (State.withQueues ys [] []) := by
  rw [← Stream.finish_withQueues (.inl rfl)]
  simp [State.withQueues, ← h]

/-- Settles O54: the host's additions stay at the ends of the queues (`Stream.finish_withQueues`), and the byte it removes
from DOUT is the first in the end as well. -/
theorem hostEventsCommuteWithTheCommand : Obligations.HostEventsCommuteWithTheCommand := by
  intro σ t ht
  refine ⟨fun w => ?_, fun b hspace => ?_, fun hdout => ?_, rfl, rfl⟩
  · have hend := Stream.finish_withQueues (σ := σ) (ys := []) (ws := [w]) (xs := []) (.inl rfl)
    simpa [ht, State.withQueues, Stream.host, State.host] using hend
  · have hend := Stream.finish_withQueues (σ := σ) (ys := []) (ws := []) (xs := [b]) (.inr (by simp [ht]))
    simpa [ht, State.withQueues, Stream.host, State.host, hspace] using hend
  · obtain ⟨y, zs, hy⟩ := List.exists_cons_of_ne_nil hdout
    rw [Stream.finish_of_dout (ys := [y]) (zs := zs) hy] at ht
    obtain ⟨u, hu, rfl⟩ := Option.map_eq_some_iff.1 ht
    simp only [Stream.host, State.host, hy, List.drop_one, List.tail_cons, hu]
    simp [State.withQueues]

/-- Settles O55: no piece of work reads DOUT, so what stands in it is at the front of DOUT in the end. -/
theorem doutIsAPrefixOfTheFinalDout : Obligations.DoutIsAPrefixOfTheFinalDout := by
  intro σ t ht
  rw [Stream.finish_of_dout (List.append_nil _).symm] at ht
  obtain ⟨u, -, rfl⟩ := Option.map_eq_some_iff.1 ht
  exact ⟨u.dout, rfl⟩

/-! Progress and deadlock. -/

/-- A tick that changes the command in progress is no wait. -/
theorem Stream.ne_of_busy {σ τ : Stream} {b b' : InProgress} (hb : σ.busy = some b) (hτ : τ.busy = some b')
    (h : b' ≠ b) : τ ≠ σ := by
  rintro rfl
  exact h (Option.some_inj.1 (hτ.symm.trans hb))

/-- Output that waits moves where DOUT has space. -/
theorem Stream.tick_ne_of_out {σ : Stream} {b : InProgress} (hb : σ.busy = some b) (hout : b.out ≠ [])
    (hroom : σ.core.dout.length < σ.config.doutDepth) : σ.tick ≠ σ := by
  obtain ⟨y, ys, hy⟩ := List.exists_cons_of_ne_nil hout
  rw [Stream.tick_of_out hb hy hroom]
  refine Stream.ne_of_busy hb rfl fun h => ?_
  have hys : ys = y :: ys := (congrArg InProgress.out h).trans hy
  exact List.cons_ne_self _ _ hys.symm

/-- Work that does not wait leaves other work, or starts the engine. -/
theorem Stream.workStep_ne {σ : Stream} {k : Nat} {t : Todo} {ts : List Todo} {sc : Bytes}
    (hb : σ.busy = some ⟨k, t :: ts, none, sc, []⟩) (ht : t.wf = true) (hdin : 48 ≤ σ.core.din.length) :
    σ.workStep ⟨k, t :: ts, none, sc, []⟩ t ts ≠ σ := by
  have hstart : ∀ f rest, σ.startUp ⟨k, t :: ts, none, sc, []⟩ f rest ≠ σ := fun f rest =>
    Stream.ne_of_busy hb rfl (by simp)
  have hdone : ∀ s sc' out, σ.advance s ⟨k, ts, none, sc', out⟩ ≠ σ := fun s sc' out =>
    Stream.ne_of_busy hb rfl (by simp)
  cases t with
  | construct | copyFrom | pad | feedScratch | saveScratch | emit | readRaw => exact hdone _ _ _
  | up | squeeze | crypt => exact hstart _ _
  | permuteRaw count =>
    cases count with
    | zero => exact hdone _ _ _
    | succ n => exact Stream.ne_of_busy hb rfl (by simp)
  | load =>
    simp only [Stream.workStep, State.dinRead_of_le hdin]
    exact hdone _ _ _
  | cryptChunk n d =>
    have hn : n ≤ 24 := of_decide_eq_true ht
    simp only [Stream.workStep, State.dinRead_of_le (show n ≤ σ.core.din.length by omega)]
    exact hdone _ _ _
  | absorb left tail rate f =>
    obtain ⟨hpos, hle⟩ : 1 ≤ rate ∧ rate ≤ 44 := by simpa [Todo.wf] using ht
    simp only [Stream.workStep, State.dinRead_of_le (show min left rate ≤ σ.core.din.length by omega)]
    split
    · exact hstart _ _
    · refine Stream.ne_of_busy hb rfl fun h => ?_
      have htodo := congrArg InProgress.todo h
      dsimp only at htodo
      split at htodo
      · exact List.cons_ne_self _ _ htodo.symm
      · next hmore =>
        simp only [List.cons.injEq, Todo.absorb.injEq] at htodo
        obtain ⟨⟨hleft, htail, -⟩, -⟩ := htodo
        have hlen := congrArg List.length htail
        rw [List.length_drop] at hlen
        omega

/-- Settles O56: output moves into DOUT, a round leads to the next or the last, and 48 bytes are enough for every chunk. -/
theorem drainedCoreMakesProgress : Obligations.DrainedCoreMakesProgress := by
  intro σ hinv hbusy hroom hdin
  obtain ⟨⟨k, todo, engine, sc, out⟩, hb⟩ := Option.ne_none_iff_exists'.1 hbusy
  obtain ⟨htodo, -⟩ := (InProgress.wf_iff _).1 ((Stream.inv_iff_of_busy hb).1 hinv).1
  rcases Stream.tick_cases hb with ⟨y, ys, hout, -, -⟩ | ⟨-, hfull, -⟩ | ⟨e, rfl, rfl, htick⟩ |
    ⟨rfl, rfl, rfl, htick⟩ | ⟨t, ts, rfl, rfl, rfl, htick⟩
  · exact Stream.tick_ne_of_out hb (by rw [hout]; exact List.cons_ne_nil _ _) hroom
  · exact absurd hroom hfull
  · rw [htick]
    refine Stream.ne_of_busy hb rfl fun h => ?_
    have he := congrArg InProgress.engine h
    dsimp only at he
    split at he
    · cases he
    · exact absurd (congrArg Engine.round (Option.some_inj.1 he)) (Nat.succ_ne_self _)
  · rw [htick]
    intro h
    exact hbusy (congrArg Stream.busy h).symm
  · rw [htick]
    exact Stream.workStep_ne hb (htodo t (List.mem_cons_self ..)) hdin

/-- Settles O57: a full DOUT stops the core and a full DIN the host; a byte removed from DOUT makes space for the next. -/
theorem fullQueuesDeadlock : Obligations.FullQueuesDeadlock := by
  intro σ b hb hout hfull hdepth hdin
  refine ⟨⟨Stream.tick_of_full hb hout (by omega), fun x => if_neg (by omega)⟩, ?_, rfl⟩
  refine Stream.tick_ne_of_out (σ := σ.host .readDout) hb hout ?_
  simp only [Stream.host, State.host, List.length_drop]
  omega

end Sys2Proof.Machine

/-! Waits (70_reset_and_hazards.md R304; O39) and the reset state (R300 to R302; O43, O44, O48). -/

namespace Sys2Proof.Machine

open Sys2Proof

/-! Waits. -/

theorem step_of_not_command {s : State} (hf : s.fault = none) (hd : ∀ i rest, decode s.cmd ≠ .command i rest) :
    step s = .next (s.incomplete (decode s.cmd)) := by
  rcases step_cases s with ⟨c, hc, -⟩ | ⟨i, rest, -, hcmd, -⟩ | ⟨-, -, hs⟩
  · simp [hf] at hc
  · exact absurd hcmd (hd i rest)
  · exact hs

/-- Words that decode to something keep IDLE at 0. -/
theorem State.status_idle_of_decode {s : State} (h : decode s.cmd ≠ .empty) : s.status.getLsbD 1 = false := by
  rw [State.status, State.statusWord_idle_bit, State.idle]
  cases hcmd : s.cmd with
  | nil => exact absurd (congrArg decode hcmd) h
  | cons w ws => rfl

/-- Settles O39: with no word and with too few length words `State.incomplete` leaves the state alone, and with too few DIN
bytes the command waits; IDLE is "CMD is empty". -/
theorem waitsChangeNothing : Obligations.WaitsChangeNothing := by
  intro s hf
  refine ⟨fun hcmd => ⟨?_, ?_⟩, fun hd hwait hslots => ⟨?_, ?_⟩, fun i rest hdecode hcheck hshort => ⟨?_, ?_⟩⟩
  · rw [step_of_not_command hf (by simp [hcmd, decode]), hcmd]
    rfl
  · rw [State.status, State.statusWord_idle_bit, State.idle, hcmd]
    rfl
  · rw [step_of_not_command hf (by simp [hwait]), hwait]
    simp only [State.incomplete, State.checkSlots_eq_none.2 hslots]
  · exact State.status_idle_of_decode (by simp [hwait])
  · rw [step_of_decode hf hdecode, exec_eq_perform, perform_of_short hcheck hshort]
  · exact State.status_idle_of_decode (by simp [hdecode])

/-! Reset. -/

/-- STATUS after reset: NCTX, and IDLE = 1. -/
theorem State.resetWith_status {n : Nat} (h : n ≤ 16) : (State.resetWith n).status = BitVec.ofNat 32 (256 * n + 2) := by
  have hword : (State.resetWith n).status = 0#19 ++ BitVec.ofNat 5 n ++ 0#4 ++ 0#2 ++ 1#1 ++ 0#1 := by
    simp [State.status, State.statusWord, State.nctx, State.fcode, State.idle]
  rw [hword]
  interval_cases n <;> rfl

theorem Context.reset_eq : Context.reset = { s := Vector.replicate 48 0, phase := .up, mode := .hash } := rfl

/-- Settles O43: every slot is a copy of the reset object, and STATUS is `State.resetWith_status`. -/
theorem resetLeavesTheListedValues : Obligations.ResetLeavesTheListedValues := by
  refine ⟨fun n _ hn => ⟨List.length_replicate, fun c hc => ?_, rfl, rfl, State.resetWith_status hn, rfl, rfl, rfl⟩,
    State.resetWith_status (by decide), fun _ => ⟨rfl, rfl⟩⟩
  rw [List.eq_of_mem_replicate hc, Context.reset_eq]
  exact ⟨rfl, rfl, rfl, rfl, rfl⟩

/-- Settles O44: reset reads the number of slots alone, and INIT_HASH constructs the object of a reset slot. -/
theorem resetForgetsEverything : Obligations.ResetForgetsEverything := by
  refine ⟨fun s => rfl, fun σ => ⟨rfl, rfl⟩, fun s t k hk hexec => ?_⟩
  rw [initHashConstructsHashObject s k hk] at hexec
  cases hexec
  rw [List.getElem?_set_self hk]
  exact (List.getElem?_replicate_of_lt hk).symm

/-- Settles O48: no object of a reset state is Keyed, and no command is in progress. -/
theorem resetMeetsTheInvariants : Obligations.ResetMeetsTheInvariants :=
  ⟨rfl, State.resetWith_keyedByKey 4, by decide, State.resetWith_keyedByKey, fun _ => .of_idle rfl⟩

end Sys2Proof.Machine

/-! The course of the finer machine does not depend on data (70_reset_and_hazards.md R311; O58): an event commutes with
forgetting every key, data and state byte. -/

namespace Sys2Proof.Machine

open Sys2Proof

/-! Strings without their bytes. -/

@[simp] theorem blankBytes_length (x : Bytes) : (blankBytes x).length = x.length := List.length_replicate

/-- A string without its bytes is its length. -/
theorem blankBytes_eq_iff {x y : Bytes} : blankBytes x = blankBytes y ↔ x.length = y.length := by
  rw [blankBytes, blankBytes, List.replicate_left_inj]

@[simp] theorem blankBytes_blankBytes (x : Bytes) : blankBytes (blankBytes x) = blankBytes x :=
  blankBytes_eq_iff.2 (blankBytes_length x)

/-! Objects without their state bytes. -/

/-- An object without its state bytes: PHASE and MODE. -/
def Context.blank (c : Context) : Context := { c with s := Block.zero }

theorem Context.blank_eq_iff {c d : Context} : c.blank = d.blank ↔ c.phase = d.phase ∧ c.mode = d.mode := by
  simp [Context.blank]

@[simp] theorem Context.blank_phase (c : Context) : c.blank.phase = c.phase := rfl
@[simp] theorem Context.blank_mode (c : Context) : c.blank.mode = c.mode := rfl
@[simp] theorem Context.blank_blank (c : Context) : c.blank.blank = c.blank := rfl

/-! States without their data bytes. -/

section
variable {s : State} {k : Nat}

theorem State.blank_slot : s.blank.slots[k]? = s.slots[k]?.map Context.blank := List.getElem?_map

theorem State.blank_nctx : s.blank.slots.length = s.slots.length := List.length_map ..

@[simp] theorem State.blank_din_length : s.blank.din.length = s.din.length := blankBytes_length _
@[simp] theorem State.blank_dout_length : s.blank.dout.length = s.dout.length := blankBytes_length _

theorem State.blank_blank : s.blank.blank = s.blank := by
  simp only [State.blank, blankBytes_blankBytes, List.map_map]
  rfl

/-- A change of a slot whose PHASE and MODE come from PHASE and MODE alone. -/
theorem State.onSlot_blank {f g : Context → Context} (h : ∀ c, (f c).blank = (g c.blank).blank) :
    (s.onSlot k f).blank = (s.blank.onSlot k g).blank := by
  have hslots : (s.slots.modify k f).map Context.blank = ((s.slots.map Context.blank).modify k g).map Context.blank := by
    refine List.ext_getElem? fun j => ?_
    simp only [List.getElem?_map, List.getElem?_modify]
    cases s.slots[j]? with
    | none => rfl
    | some c =>
      by_cases hj : k = j
      · simpa [hj] using h c
      · simp [hj]
  simp only [State.onSlot, State.blank, blankBytes_blankBytes]
  congr 1

/-- Bytes taken from a slot whose number comes from PHASE and MODE alone. -/
theorem State.peek_blank {f g : Context → Bytes} (h : ∀ c, (f c).length = (g c.blank).length) :
    blankBytes (s.peek k f) = blankBytes (s.blank.peek k g) := by
  rw [blankBytes_eq_iff, State.peek, State.peek, State.blank_slot]
  cases s.slots[k]? with
  | none => rfl
  | some c => exact h c

/-- P is data. -/
theorem State.setP_blank {p q : Block} : ({ s with p := p } : State).blank = ({ s.blank with p := q } : State).blank := by
  simpa only [State.blank] using s.blank_blank.symm

/-- The object of slot `k`, or `c` where there is none. -/
theorem State.getD_blank (c : Context) : s.blank.slots.getD k c.blank = (s.slots.getD k c).blank := by
  rw [List.getD_eq_getElem?_getD, List.getD_eq_getElem?_getD, State.blank_slot]
  cases s.slots[k]? <;> rfl

theorem State.contextAt_blank : s.blank.contextAt k = (s.contextAt k).blank := by
  rw [State.contextAt, State.contextAt, ← State.getD_blank]
  rfl

/-- DinRead waits by the number of bytes alone. -/
theorem State.dinRead_blank {n : Nat} :
    s.blank.dinRead n = (s.dinRead n).map fun r => (blankBytes r.1, r.2.blank) := by
  by_cases h : n ≤ s.din.length
  · rw [State.dinRead_of_le h, State.dinRead_of_le (by simpa using h)]
    simp [State.blank, blankBytes]
  · rw [State.dinRead_eq_none.2 (Nat.lt_of_not_le h), State.dinRead_eq_none.2 (by simpa using h)]
    rfl

theorem State.checkKeyed_blank : s.blank.checkKeyed k = s.checkKeyed k := by
  rw [State.checkKeyed, State.checkKeyed, State.blank_slot]
  cases s.slots[k]? <;> rfl

/-- The checks read slot numbers, modes and lengths. -/
theorem State.check_blank (i : Instr) : s.blank.check i = s.check i := by
  cases i <;> simp only [State.check, State.checkSlots, State.blank_nctx, State.checkKeyed_blank]

/-- The bytes of DIN and DOUT are data, their numbers are not. -/
theorem State.setDin_blank {x y : Bytes} (h : x.length = y.length) :
    ({ s with din := x } : State).blank = ({ s.blank with din := y } : State).blank := by
  rw [State.blank, blankBytes_eq_iff.2 h]
  exact congrArg (fun u : State => { u with din := blankBytes y }) s.blank_blank.symm

theorem State.setDout_blank {x y : Bytes} (h : x.length = y.length) :
    ({ s with dout := x } : State).blank = ({ s.blank with dout := y } : State).blank := by
  rw [State.blank, blankBytes_eq_iff.2 h]
  exact congrArg (fun u : State => { u with dout := blankBytes y }) s.blank_blank.symm

/-- CMD and the fault are no data. -/
theorem State.setControl_blank {f : Option FaultCode} {ws : List Word} :
    ({ s with fault := f, cmd := ws } : State).blank = ({ s.blank with fault := f, cmd := ws } : State).blank :=
  congrArg (fun u : State => { u with fault := f, cmd := ws }) s.blank_blank.symm

/-- Words that are no whole command. -/
theorem State.incomplete_blank (d : Decoded) : (s.incomplete d).blank = (s.blank.incomplete d).blank := by
  cases d with
  | empty | command => exact State.blank_blank.symm
  | illegal => exact State.setControl_blank
  | waiting h =>
    have hslots : s.blank.checkSlots h.slotFields = s.checkSlots h.slotFields := by
      simp only [State.checkSlots, State.blank_nctx]
    simp only [State.incomplete, hslots]
    cases s.checkSlots h.slotFields with
    | none => exact State.blank_blank.symm
    | some code => exact State.setControl_blank

/-- The work of a command depends on the mode of its slot alone. -/
theorem State.work_blank (i : Instr) : s.blank.work i = s.work i := by
  cases i <;> simp only [State.work, State.contextAt_blank, Context.blank_mode]

end

/-! Cores without their data bytes. -/

/-- A command in progress without its data bytes. -/
def InProgress.blank (b : InProgress) : InProgress := { b with scratch := blankBytes b.scratch, out := blankBytes b.out }

section
variable {σ : Stream}

theorem Stream.blank_eq (σ : Stream) :
    σ.blank = ⟨σ.config, σ.core.blank, σ.busy.map InProgress.blank, σ.permutations⟩ := rfl

@[simp] theorem Stream.blank_config (σ : Stream) : σ.blank.config = σ.config := rfl
@[simp] theorem Stream.blank_core (σ : Stream) : σ.blank.core = σ.core.blank := rfl

theorem Stream.blank_busy {b : InProgress} (hb : σ.busy = some b) : σ.blank.busy = some b.blank := by
  rw [Stream.blank_eq, hb]
  rfl

theorem Stream.blank_blank : σ.blank.blank = σ.blank := by
  simp only [Stream.blank_eq, State.blank_blank, Option.map_map]
  congr 2
  funext b
  simp only [Function.comp, InProgress.blank, blankBytes_blankBytes]

/-- A change of the core's state alone. -/
theorem Stream.setCore_blank {s s' : State} (h : s.blank = s'.blank) :
    ({ σ with core := s } : Stream).blank = ({ σ.blank with core := s' } : Stream).blank := by
  rw [Stream.blank_eq, h]
  exact congrArg (fun τ : Stream => { τ with core := s'.blank }) σ.blank_blank.symm

theorem Stream.advance_blank {s s' : State} {b b' : InProgress} (hs : s.blank = s'.blank) (hb : b.blank = b'.blank) :
    (σ.advance s b).blank = (σ.blank.advance s' b').blank := by
  simp only [Stream.blank_eq, Stream.advance, hs, Option.map_some, hb]

theorem Context.upFlag_blank (c : Context) (f : Flag) : (c.upFlag f).blank = (c.blank.upFlag f).blank := by
  simp [Context.blank_eq_iff]

theorem Context.down_blank (c : Context) (x y : Bytes) (f : Flag) : (c.down x f).blank = (c.blank.down y f).blank := by
  simp [Context.blank_eq_iff]

theorem Stream.startUp_blank {b : InProgress} {f : Flag} {rest : List Todo} :
    (σ.startUp b f rest).blank = (σ.blank.startUp b.blank f rest).blank := by
  have hcore : (σ.core.onSlot b.slot fun c => c.upFlag f).blank =
      (σ.core.blank.onSlot b.slot fun c => c.upFlag f).blank := State.onSlot_blank fun c => c.upFlag_blank f
  simp only [Stream.blank_eq, Stream.startUp, InProgress.blank, Option.map_some, hcore, blankBytes_blankBytes]

/-- A round changes PHASE by the round index alone. -/
theorem Stream.engineStep_blank {b : InProgress} {e : Engine} :
    (σ.engineStep b e).blank = (σ.blank.engineStep b.blank e).blank := by
  obtain ⟨target, r⟩ := e
  have hcore : (σ.engineStep b ⟨target, r⟩).core.blank = (σ.blank.engineStep b.blank ⟨target, r⟩).core.blank := by
    cases target with
    | raw => exact State.setP_blank
    | slot => exact State.onSlot_blank fun c => Context.blank_eq_iff.2 ⟨rfl, rfl⟩
  rw [Stream.blank_eq, Stream.blank_eq, hcore]
  simp only [Stream.engineStep, Stream.blank_eq, InProgress.blank, Option.map_some, blankBytes_blankBytes]

/-- The output of a crypt turn has the length of its input. -/
theorem Block.mask_length_eq {x y : Bytes} (h : x.length = y.length) (s t : Block) :
    (s.mask x).length = (t.mask y).length := by
  simp [Block.mask, h]

theorem Block.first_length_eq (s t : Block) (n : Nat) : (s.first n).length = (t.first n).length := by
  simp [Block.first]

section
variable {k n : Nat} {t : Todo} {ts todo : List Todo} {sc : Bytes}

/-- A tick that leaves the engine at rest and produces no output. -/
theorem Stream.advance_blank_silent {s s' : State} (hs : s.blank = s'.blank) :
    (σ.advance s ⟨k, todo, none, sc, []⟩).blank =
      (σ.blank.advance s' ⟨k, todo, none, blankBytes sc, []⟩).blank :=
  Stream.advance_blank hs (by simp only [InProgress.blank, blankBytes_blankBytes])

/-- A tick that leaves the engine at rest and produces output. -/
theorem Stream.advance_blank_out {s s' : State} {out out' : Bytes} (hs : s.blank = s'.blank)
    (hout : blankBytes out = blankBytes out') :
    (σ.advance s ⟨k, todo, none, sc, out⟩).blank =
      (σ.blank.advance s' ⟨k, todo, none, blankBytes sc, out'⟩).blank :=
  Stream.advance_blank hs (by simp only [InProgress.blank, blankBytes_blankBytes, hout])

theorem State.peek_first_blank {s : State} :
    blankBytes (s.peek k fun c => c.s.first n) = blankBytes (s.blank.peek k fun c => c.s.first n) :=
  State.peek_blank (g := fun c => c.s.first n) fun _ => Block.first_length_eq ..

/-- One piece of work takes its course by lengths, PHASE and MODE alone. -/
theorem Stream.workStep_blank :
    (σ.workStep ⟨k, t :: ts, none, sc, []⟩ t ts).blank =
      (σ.blank.workStep ⟨k, t :: ts, none, blankBytes sc, []⟩ t ts).blank := by
  have hstart : ∀ f rest, (σ.startUp ⟨k, t :: ts, none, sc, []⟩ f rest).blank =
      (σ.blank.startUp ⟨k, t :: ts, none, blankBytes sc, []⟩ f rest).blank := fun f rest => Stream.startUp_blank
  cases t with
  | construct m => exact Stream.advance_blank_silent (State.onSlot_blank fun _ => rfl)
  | pad => exact Stream.advance_blank_silent (State.onSlot_blank fun c => c.down_blank ..)
  | feedScratch => exact Stream.advance_blank_silent (State.onSlot_blank fun c => c.down_blank ..)
  | copyFrom src =>
    exact Stream.advance_blank_silent (State.onSlot_blank fun c => (congrArg Context.blank (State.getD_blank c)).symm)
  | saveScratch n =>
    refine Stream.advance_blank State.blank_blank.symm ?_
    rw [InProgress.blank, State.peek_first_blank]
    rfl
  | emit n => exact Stream.advance_blank_out State.blank_blank.symm State.peek_first_blank
  | readRaw =>
    exact Stream.advance_blank_out State.blank_blank.symm (blankBytes_eq_iff.2 (by simp))
  | up f => exact hstart _ _
  | squeeze left f =>
    simp only [Stream.workStep, Stream.blank_core, State.contextAt_blank, Context.blank_mode]
    exact hstart _ _
  | crypt left d f => exact hstart _ _
  | permuteRaw count =>
    cases count with
    | zero => exact Stream.advance_blank_silent State.blank_blank.symm
    | succ n =>
      simp only [Stream.workStep, Stream.blank_eq, State.blank_blank, Option.map_some, InProgress.blank,
        blankBytes_blankBytes]
  | load =>
    simp only [Stream.workStep, Stream.blank_core, State.dinRead_blank]
    cases σ.core.dinRead 48 with
    | none => exact Stream.blank_blank.symm
    | some r => exact Stream.advance_blank_silent State.setP_blank
  | cryptChunk n d =>
    simp only [Stream.workStep, Stream.blank_core, State.dinRead_blank]
    cases σ.core.dinRead n with
    | none => exact Stream.blank_blank.symm
    | some r =>
      refine Stream.advance_blank_out (State.onSlot_blank fun c => c.down_blank ..) (State.peek_blank fun _ => ?_)
      exact Block.mask_length_eq (blankBytes_length _).symm ..
  | absorb left tail rate f =>
    simp only [Stream.workStep, Stream.blank_core, State.contextAt_blank, Context.blank_phase, State.dinRead_blank]
    cases (σ.core.contextAt k).phase with
    | down => exact hstart _ _
    | up =>
      cases σ.core.dinRead (min left rate) with
      | none => exact Stream.blank_blank.symm
      | some r => exact Stream.advance_blank_silent (State.onSlot_blank fun c => c.down_blank ..)

end

/-- A fetch reads CMD, the fault, and the slots by number and mode. -/
theorem Stream.fetch_blank : σ.fetch.blank = σ.blank.fetch.blank := by
  have hfault : σ.core.blank.fault = σ.core.fault := rfl
  have hcmd : σ.core.blank.cmd = σ.core.cmd := rfl
  simp only [Stream.fetch, Stream.blank_core, hfault, hcmd, State.check_blank]
  cases σ.core.fault with
  | some code => exact Stream.blank_blank.symm
  | none =>
    cases decode σ.core.cmd with
    | command i rest =>
      simp only
      cases σ.core.check i with
      | some code => exact Stream.setCore_blank State.setControl_blank
      | none =>
        have hbegin : σ.core.blank.begin i = σ.core.begin i := by simp only [State.begin, State.work_blank]
        have htake : (σ.core.takeCmd i.words).blank = (σ.core.blank.takeCmd i.words).blank := State.setControl_blank
        simp only [Stream.blank_eq, hbegin, htake]
    | empty | illegal | waiting => exact Stream.setCore_blank (State.incomplete_blank _)

/-- Every tick takes its course by lengths, PHASE and MODE alone. -/
theorem Stream.tick_blank : σ.tick.blank = σ.blank.tick.blank := by
  cases hb : σ.busy with
  | none =>
    have hidle : σ.blank.busy = none := by rw [Stream.blank_eq, hb]; rfl
    rw [Stream.tick_of_idle hb, Stream.tick_of_idle hidle, Stream.fetch_blank]
  | some b =>
    have hbusy := Stream.blank_busy hb
    obtain ⟨k, todo, engine, sc, out⟩ := b
    rcases Stream.tick_cases hb with ⟨y, ys, rfl, hroom, htick⟩ | ⟨hout, hfull, htick⟩ | ⟨e, rfl, rfl, htick⟩ |
      ⟨rfl, rfl, rfl, htick⟩ | ⟨t, ts, rfl, rfl, rfl, htick⟩ <;> rw [htick]
    · rw [Stream.tick_of_out (y := 0) (ys := blankBytes ys) hbusy rfl (by simpa using hroom)]
      refine Stream.advance_blank ?_ ?_
      · exact State.setDout_blank (by simp)
      · simp only [InProgress.blank, blankBytes_blankBytes]
    · rw [Stream.tick_of_full hbusy (by simpa [InProgress.blank, blankBytes] using hout)
        (by simpa using hfull), Stream.blank_blank]
    · rw [Stream.tick_of_engine hbusy rfl rfl]
      exact Stream.engineStep_blank
    · rw [Stream.tick_of_done hbusy rfl rfl rfl]
      simp only [Stream.blank_eq, State.blank_blank]
    · rw [Stream.tick_of_work hbusy rfl rfl rfl]
      exact Stream.workStep_blank

/-- A write to DIN happens or not by the number of bytes in it, and the byte is data. -/
theorem Stream.writeDin_blank (b b' : Byte) : (σ.host (.writeDin b)).blank = (σ.blank.host (.writeDin b')).blank := by
  simp only [Stream.host, Stream.blank_core, Stream.blank_config, State.blank_din_length]
  split
  · exact Stream.setCore_blank (State.setDin_blank (by simp))
  · exact Stream.blank_blank.symm

/-- Every host event takes its course by lengths, PHASE and MODE alone. -/
theorem Stream.host_blank (e : HostEvent) : (σ.host e).blank = (σ.blank.host e).blank := by
  cases e with
  | writeCmd w => exact Stream.setCore_blank State.setControl_blank
  | writeDin b => exact Stream.writeDin_blank b b
  | readDout => exact Stream.setCore_blank (State.setDout_blank (by simp))
  | readStatus => exact Stream.blank_blank.symm
  | reset =>
    simp only [Stream.host, State.resetEvent, Stream.blank_core, State.blank_nctx]
    rfl

end

theorem Stream.ticks_blank {σ τ : Stream} (h : σ.blank = τ.blank) (n : Nat) :
    (σ.ticks n).blank = (τ.ticks n).blank := by
  induction n generalizing σ τ with
  | zero => exact h
  | succ n ih => exact ih (by rw [Stream.tick_blank, h, ← Stream.tick_blank])

/-- Settles O58: ticks and host events commute with forgetting the data, and a DIN byte's value is data. -/
theorem stepsAreDataIndependent : Obligations.StepsAreDataIndependent := by
  intro σ τ h
  have hhost : ∀ e, (σ.host e).blank = (τ.host e).blank := fun e => by
    rw [Stream.host_blank, h, ← Stream.host_blank]
  exact ⟨Stream.ticks_blank h, hhost, fun b b' => by rw [Stream.writeDin_blank b b', h, ← Stream.writeDin_blank]⟩

end Sys2Proof.Machine

/-! A ready command whose output fits DOUT completes, with the permutations that 70_reset_and_hazards.md R309 lists (O53). -/

namespace Sys2Proof.Machine

open Sys2Proof

/-! Runs of ticks. -/

theorem Stream.ticks_add (σ : Stream) (n m : Nat) : σ.ticks (n + m) = (σ.ticks n).ticks m := by
  induction n generalizing σ with
  | zero => rw [Nat.zero_add]; rfl
  | succ n ih => rw [Nat.succ_add]; exact ih σ.tick

/-- Some number of ticks leads from `σ` to `τ`. -/
def Stream.Reaches (σ τ : Stream) : Prop := ∃ n, σ.ticks n = τ

theorem Stream.Reaches.refl (σ : Stream) : σ.Reaches σ := ⟨0, rfl⟩

theorem Stream.Reaches.trans {σ τ υ : Stream} (h : σ.Reaches τ) (h' : τ.Reaches υ) : σ.Reaches υ := by
  obtain ⟨n, rfl⟩ := h
  obtain ⟨m, rfl⟩ := h'
  exact ⟨n + m, σ.ticks_add n m⟩

theorem Stream.Reaches.step {σ τ υ : Stream} (h : σ.tick = τ) (h' : τ.Reaches υ) : σ.Reaches υ := by
  obtain ⟨n, rfl⟩ := h'
  exact ⟨n + 1, by rw [← h]; rfl⟩

theorem Stream.Reaches.of_tick {σ τ : Stream} (h : σ.tick = τ) : σ.Reaches τ := ⟨1, h⟩

/-- A core about to take up the work `ts`: the engine rests, and no output waits. -/
def Stream.working (config : Config) (s : State) (k : Nat) (ts : List Todo) (sc : Bytes) (n : Nat) : Stream :=
  ⟨config, s, some ⟨k, ts, none, sc, []⟩, n⟩

section
variable {config : Config} {s t : State} {k n : Nat} {ts : List Todo} {sc : Bytes}

theorem Stream.working_tick {u : Todo} :
    (Stream.working config s k (u :: ts) sc n).tick =
      (Stream.working config s k (u :: ts) sc n).workStep ⟨k, u :: ts, none, sc, []⟩ u ts :=
  Stream.tick_of_work rfl rfl rfl rfl

/-- A piece of work that is done in one tick. -/
theorem Stream.silent_reaches {s' : State} {sc' : Bytes} {u : Todo}
    (h : (Stream.working config s k (u :: ts) sc n).workStep ⟨k, u :: ts, none, sc, []⟩ u ts =
      Stream.working config s' k ts sc' n) :
    (Stream.working config s k (u :: ts) sc n).Reaches (Stream.working config s' k ts sc' n) :=
  .of_tick (Stream.working_tick.trans h)

/-- With no work left the command completes. -/
theorem Stream.working_nil_reaches :
    (Stream.working config s k [] sc n).Reaches ⟨config, s, none, n⟩ :=
  .of_tick (Stream.tick_of_done rfl rfl rfl rfl)

/-- Output for which DOUT has space moves there. -/
theorem Stream.out_reaches {out : Bytes} (hroom : (s.doutWrite out).dout.length ≤ config.doutDepth) :
    (⟨config, s, some ⟨k, ts, none, sc, out⟩, n⟩ : Stream).Reaches
      (Stream.working config (s.doutWrite out) k ts sc n) := by
  induction out generalizing s with
  | nil => rw [State.doutWrite_nil]; exact .refl _
  | cons y ys ih =>
    have hspace : s.dout.length < config.doutDepth := by simp at hroom; omega
    have hwrite : (s.doutWrite [y]).doutWrite ys = s.doutWrite (y :: ys) := State.doutWrite_doutWrite ..
    rw [← hwrite] at hroom ⊢
    exact .step (Stream.tick_of_out rfl rfl hspace) (ih hroom)

theorem Engine.next_eq_some {e e' : Engine} (h : e.next = some e') :
    e.round < 11 ∧ e' = { e with round := e.round + 1 } := by
  unfold Engine.next at h
  split at h
  · cases h
  · cases h
    exact ⟨by omega, rfl⟩

theorem Stream.engineStep_eq (σ : Stream) (b : InProgress) (e : Engine) :
    σ.engineStep b e = ⟨σ.config, (σ.engineStep b e).core, some { b with engine := e.next }, σ.permutations⟩ := rfl

/-- The engine runs the rounds that remain. -/
theorem Stream.engine_reaches {e : Engine} (hr : e.round < 12) :
    (⟨config, s, some ⟨k, ts, some e, sc, []⟩, n⟩ : Stream).Reaches
      (Stream.working config (s.finishEngine k (some e)) k ts sc n) := by
  induction hd : 12 - e.round generalizing s e with
  | zero => omega
  | succ d ih =>
    have hcore := Stream.engineStep_finishEngine (σ := ⟨config, s, some ⟨k, ts, some e, sc, []⟩, n⟩)
      (b := ⟨k, ts, some e, sc, []⟩) hr
    refine .step (Stream.tick_of_engine rfl rfl rfl) ?_
    rw [← hcore, Stream.engineStep_eq]
    cases hnext : e.next with
    | none => exact .refl _
    | some e' =>
      obtain ⟨hlt, rfl⟩ := Engine.next_eq_some hnext
      exact ih (e := { e with round := e.round + 1 }) (Nat.succ_lt_succ hlt) (by simp only; omega)

/-- A piece of work that starts `up(f)` with the work `rest` behind it. -/
theorem Stream.up_reaches {f : Flag} {todo rest : List Todo}
    (h : (Stream.working config s k todo sc n).tick =
      (Stream.working config s k todo sc n).startUp ⟨k, todo, none, sc, []⟩ f rest) :
    (Stream.working config s k todo sc n).Reaches
      (Stream.working config (s.onSlot k fun c => c.up f) k rest sc (n + 1)) := by
  have hrun := Stream.engine_reaches (config := config) (s := s.onSlot k fun c => c.upFlag f) (k := k) (ts := rest)
    (sc := sc) (n := n + 1) (e := ⟨.slot, 0⟩) (by decide)
  simp only [State.finishEngine_slot, State.onSlot_onSlot, Context.up_eq_finishRounds] at hrun
  exact .step h hrun

/-- The permutations of P. -/
theorem Stream.permuteRaw_reaches {count : Nat} :
    (Stream.working config s k (.permuteRaw count :: ts) sc n).Reaches
      (Stream.working config { s with p := permuteTimes count s.p } k ts sc (n + count)) := by
  induction count generalizing s n with
  | zero => exact .of_tick Stream.working_tick
  | succ count ih =>
    have hperm : s.finishEngine k (some ⟨.raw, 0⟩) = { s with p := permute s.p } := by
      simp only [State.finishEngine, Block.finishRounds_zero]
    have hrun := Stream.engine_reaches (config := config) (s := s) (k := k) (ts := .permuteRaw count :: ts) (sc := sc)
      (n := n + 1) (e := ⟨.raw, 0⟩) (by decide)
    rw [hperm] at hrun
    have hrest := ih (s := { s with p := permute s.p }) (n := n + 1)
    rw [Nat.add_right_comm] at hrest
    exact .step Stream.working_tick (hrun.trans hrest)

end

/-! The loops: what the rest of the work starts from, and the permutations on the way there. -/

section
variable {config : Config} {k : Nat} {ts : List Todo} {sc : Bytes} {t : State}

theorem State.contextAt_onSlot {s : State} (hk : k < s.slots.length) (f : Context → Context) :
    (s.onSlot k f).contextAt k = f (s.contextAt k) := by
  have hslot : s.slots[k]? = some (s.slots[k]) := List.getElem?_eq_getElem hk
  have hnew : (s.onSlot k f).slots[k]? = some (f s.slots[k]) := by rw [State.onSlot_get, if_pos rfl, hslot]; rfl
  rw [State.contextAt_of_slot hslot, State.contextAt_of_slot hnew]

/-- The rest of the work appends to DOUT. -/
theorem finishAll_dout_length_le {s : State} (h : finishAll k ts sc s = some t) : s.dout.length ≤ t.dout.length := by
  have hs : s = ({ s with dout := [] } : State).withQueues s.dout [] [] := by simp [State.withQueues]
  rw [hs, finishAll_withQueues (.inl rfl)] at h
  obtain ⟨u, -, rfl⟩ := Option.map_eq_some_iff.1 h
  simp [State.withQueues]

/-- The bytes of an absorption that ends are there. -/
theorem le_din_of_finishAll_absorb {s : State} {left rate : Nat} {tail : Bytes} {f : Flag}
    (h : finishAll k (.absorb left tail rate f :: ts) sc s = some t) : left ≤ s.din.length := by
  by_contra hshort
  rw [finishAll_cons, Todo.finish, State.dinRead_eq_none.2 (Nat.lt_of_not_le hshort)] at h
  cases h

/-- A chunk of an absorption. -/
theorem Stream.working_absorb_tick {s s' : State} {left rate n : Nat} {tail x : Bytes} {f : Flag}
    (hph : (s.contextAt k).phase = .up) (hd : s.dinRead (min left rate) = some (x, s')) :
    (Stream.working config s k (.absorb left tail rate f :: ts) sc n).tick =
      Stream.working config
        (s'.onSlot k fun c => c.down (x ++ tail.take (min tail.length (rate - min left rate))) f) k
        (if left - min left rate = 0 ∧ tail.length - min tail.length (rate - min left rate) = 0 then ts
          else .absorb (left - min left rate) (tail.drop (min tail.length (rate - min left rate))) rate .zero :: ts)
        sc n := by
  rw [Stream.working_tick]
  simp only [Stream.workStep, Stream.working, hph, hd, Stream.advance]

/-- Where the piece of work `u` absorbs: from `s` the core gets to the work `ts` behind it, in a state that ends in `t`
and has slot `k` Down, with `p` permutations on the way. -/
def Stream.Absorbs (config : Config) (k : Nat) (ts : List Todo) (sc : Bytes) (t s : State) (u : Todo) (p : Nat) : Prop :=
  ∃ v, finishAll k ts sc v = some t ∧ v.slots.length = s.slots.length ∧ (v.contextAt k).phase = .down ∧
    ∀ n, (Stream.working config s k (u :: ts) sc n).Reaches (Stream.working config v k ts sc (n + p))

/-- An absorption runs to its end, with one permutation before every chunk but a first one in PHASE Up. -/
theorem Stream.absorb_reaches {s : State} {left rate : Nat} {tail : Bytes} {f : Flag} (hr : 0 < rate)
    (hk : k < s.slots.length) (h : finishAll k (.absorb left tail rate f :: ts) sc s = some t) :
    Stream.Absorbs config k ts sc t s (.absorb left tail rate f)
      ((if (s.contextAt k).phase = .down then 1 else 0) + (numChunks (left + tail.length) rate - 1)) := by
  induction hl : left + tail.length using Nat.strong_induction_on generalizing left tail f s with
  | _ len ih =>
  subst hl
  have hup : ∀ {s : State}, k < s.slots.length → (s.contextAt k).phase = .up →
      finishAll k (.absorb left tail rate f :: ts) sc s = some t →
      Stream.Absorbs config k ts sc t s (.absorb left tail rate f) (numChunks (left + tail.length) rate - 1) := by
    intro s hk hph h
    have hread := State.dinRead_eq_dropDin (s := s) (n := min left rate)
      ((Nat.min_le_left ..).trans (le_din_of_finishAll_absorb h))
    have htick := fun n => Stream.working_absorb_tick (config := config) (ts := ts) (sc := sc) (n := n) (tail := tail)
      (f := f) hph hread
    have hdown : ∀ x, (((s.dropDin (min left rate)).onSlot k fun c => c.down x f).contextAt k).phase = .down := by
      intro x
      rw [State.contextAt_onSlot (by exact hk), Context.down_phase]
    rw [finishAll_absorb_of_up hr hph hread] at h
    by_cases hlast : left + tail.length ≤ rate
    · have hnone : left - min left rate = 0 ∧ tail.length - min tail.length (rate - min left rate) = 0 := by omega
      simp only [if_pos hnone] at h htick
      refine ⟨_, h, State.onSlot_nctx .., hdown _, fun n => ?_⟩
      rw [numChunks_of_le hr hlast]
      exact .of_tick (htick n)
    · have hmore : ¬ (left - min left rate = 0 ∧ tail.length - min tail.length (rate - min left rate) = 0) := by omega
      have hrest : left - min left rate + (tail.drop (min tail.length (rate - min left rate))).length =
          left + tail.length - rate := by rw [List.length_drop]; omega
      simp only [if_neg hmore] at h htick
      obtain ⟨u, hu, hlen, hphase, hreach⟩ := ih _ (by omega) (by rw [State.onSlot_nctx]; exact hk) h hrest
      refine ⟨u, hu, hlen.trans (State.onSlot_nctx ..), hphase, fun n => .step (htick n) ?_⟩
      rw [numChunks_of_gt hr (Nat.lt_of_not_le hlast)]
      have hpos := numChunks_pos (left + tail.length - rate) rate
      convert hreach n using 3
      rw [if_pos (hdown _)]
      omega
  cases hph : (s.contextAt k).phase with
  | up => simpa using hup hk hph h
  | down =>
    rw [finishAll_absorb_of_down hr hph] at h
    obtain ⟨u, hu, hlen, hphase, hreach⟩ := hup (s := s.onSlot k fun c => c.up .zero) (by simpa using hk)
      (by rw [State.contextAt_onSlot hk, Context.up_phase]) h
    refine ⟨u, hu, hlen.trans (State.onSlot_nctx ..), hphase, fun n => ?_⟩
    rw [if_pos rfl, ← Nat.add_assoc]
    refine (Stream.up_reaches (f := .zero) (rest := .absorb left tail rate f :: ts) ?_).trans (hreach (n + 1))
    rw [Stream.working_tick]
    simp only [Stream.workStep, Stream.working, hph]

/-- MODE of the object of slot `k`. -/
theorem State.contextAt_mode (s : State) : (s.contextAt k).mode = (s.slots[k]?.map Context.mode).getD .hash := by
  rw [State.contextAt, List.getD_eq_getElem?_getD]
  cases s.slots[k]? <;> rfl

/-- Bytes of the object go to DOUT where there is space for them. -/
theorem Stream.emit_reaches {s : State} {m n : Nat}
    (hroom : (s.onSlotOut k fun c => (c.s.first m, c)).dout.length ≤ config.doutDepth) :
    (Stream.working config s k (.emit m :: ts) sc n).Reaches
      (Stream.working config (s.onSlotOut k fun c => (c.s.first m, c)) k ts sc n) := by
  rw [State.onSlotOut_eq, State.onSlot_id] at hroom ⊢
  exact .step Stream.working_tick (Stream.out_reaches hroom)

/-- One turn of a squeeze of `left` bytes, on a chunk of `m`. -/
theorem Stream.squeezeTurn_reaches {s u : State} {left m n : Nat} {f : Flag}
    (hm : m = min left (s.contextAt k).mode.squeezeRate)
    (hu : u = (s.onSlot k fun c => c.up f).onSlotOut k fun c => (c.s.first m, c))
    (hroom : u.dout.length ≤ config.doutDepth) :
    (Stream.working config s k (.squeeze left f :: ts) sc n).Reaches
      (Stream.working config u k (if left - m = 0 then ts else .pad :: .squeeze (left - m) .zero :: ts) sc (n + 1)) := by
  subst hm hu
  exact (Stream.up_reaches Stream.working_tick).trans (Stream.emit_reaches hroom)

/-- A squeeze runs to its end, with one permutation for every chunk. -/
theorem Stream.squeeze_reaches {s : State} {left : Nat} {f : Flag} (hroom : t.dout.length ≤ config.doutDepth)
    (h : finishAll k (.squeeze left f :: ts) sc s = some t) :
    ∃ u, finishAll k ts sc u = some t ∧
      ∀ n, (Stream.working config s k (.squeeze left f :: ts) sc n).Reaches
        (Stream.working config u k ts sc (n + numChunks left (s.contextAt k).mode.squeezeRate)) := by
  induction left using Nat.strong_induction_on generalizing f s with
  | _ left ih =>
  have hr := (s.contextAt k).mode.squeezeRate_pos
  rw [finishAll_squeeze, finishAll_of_finish rfl] at h
  have hturn := fun n => Stream.squeezeTurn_reaches (config := config) (ts := ts) (sc := sc) (n := n) (left := left)
    rfl rfl ((finishAll_dout_length_le h).trans hroom)
  by_cases hlast : left ≤ (s.contextAt k).mode.squeezeRate
  · have hnone : left - min left (s.contextAt k).mode.squeezeRate = 0 := by omega
    simp only [if_pos hnone] at h hturn
    refine ⟨_, h, fun n => ?_⟩
    rw [numChunks_of_le hr hlast]
    exact hturn n
  · have hmore : ¬ left - min left (s.contextAt k).mode.squeezeRate = 0 := by omega
    simp only [if_neg hmore] at h hturn
    rw [finishAll_of_finish rfl] at h
    obtain ⟨u, hu, hreach⟩ := ih _ (by omega) h
    refine ⟨u, hu, fun n => (hturn n).trans (.step Stream.working_tick ?_)⟩
    have hmode : ((((s.onSlot k fun c => c.up f).onSlotOut k fun c =>
        (c.s.first (min left (s.contextAt k).mode.squeezeRate), c)).onSlot k fun c => c.down [] .zero).contextAt k).mode =
        (s.contextAt k).mode := by
      rw [State.contextAt_mode, State.contextAt_mode, State.onSlot_mode fun c => c.down_mode ..,
        State.onSlotOut_mode fun c => rfl, State.onSlot_mode fun c => c.up_mode ..]
    rw [hmode, Nat.min_eq_right (Nat.le_of_not_le hlast)] at hreach
    rw [numChunks_of_gt hr (Nat.lt_of_not_le hlast), ← Nat.add_assoc, Nat.add_right_comm,
      Nat.min_eq_right (Nat.le_of_not_le hlast)]
    exact hreach (n + 1)

/-- The second half of a crypt turn. -/
theorem Stream.cryptChunk_reaches {s : State} {m n : Nat} {d : Bool} (hdin : m ≤ s.din.length)
    (hroom : ((s.dropDin m).onSlotOut k fun c => c.cryptBlock (s.din.take m) d).dout.length ≤ config.doutDepth) :
    (Stream.working config s k (.cryptChunk m d :: ts) sc n).Reaches
      (Stream.working config ((s.dropDin m).onSlotOut k fun c => c.cryptBlock (s.din.take m) d) k ts sc n) := by
  rw [State.onSlotOut_eq] at hroom ⊢
  refine .step ?_ (Stream.out_reaches hroom)
  rw [Stream.working_tick]
  simp only [Stream.workStep, Stream.working, State.dinRead_eq_dropDin hdin, Stream.advance]

/-- The bytes of a crypt that ends are there. -/
theorem le_din_of_finishAll_crypt {s : State} {left : Nat} {d : Bool} {f : Flag}
    (h : finishAll k (.crypt left d f :: ts) sc s = some t) : left ≤ s.din.length := by
  by_contra hshort
  rw [finishAll_cons, Todo.finish, State.dinRead_eq_none.2 (Nat.lt_of_not_le hshort)] at h
  cases h

/-- A crypt runs to its end, with one permutation for every chunk. -/
theorem Stream.crypt_reaches {s : State} {left : Nat} {d : Bool} {f : Flag} (hroom : t.dout.length ≤ config.doutDepth)
    (h : finishAll k (.crypt left d f :: ts) sc s = some t) :
    ∃ u, finishAll k ts sc u = some t ∧
      ∀ n, (Stream.working config s k (.crypt left d f :: ts) sc n).Reaches
        (Stream.working config u k ts sc (n + numChunks left cryptRate)) := by
  induction left using Nat.strong_induction_on generalizing f s with
  | _ left ih =>
  have hr : 0 < cryptRate := by decide
  have hdin : min left cryptRate ≤ (s.onSlot k fun c => c.up f).din.length :=
    (Nat.min_le_left ..).trans (le_din_of_finishAll_crypt (s := s) h)
  rw [finishAll_crypt, finishAll_cryptChunk_of_le hdin] at h
  have hturn : ∀ n, (Stream.working config s k (.crypt left d f :: ts) sc n).Reaches _ := fun n =>
    (Stream.up_reaches Stream.working_tick).trans
      (Stream.cryptChunk_reaches hdin ((finishAll_dout_length_le h).trans hroom))
  by_cases hlast : left ≤ cryptRate
  · have hnone : left - min left cryptRate = 0 := by omega
    simp only [if_pos hnone] at h hturn
    refine ⟨_, h, fun n => ?_⟩
    rw [numChunks_of_le hr hlast]
    exact hturn n
  · have hmore : ¬ left - min left cryptRate = 0 := by omega
    simp only [if_neg hmore] at h hturn
    obtain ⟨u, hu, hreach⟩ := ih _ (by omega) h
    refine ⟨u, hu, fun n => (hturn n).trans ?_⟩
    rw [numChunks_of_gt hr (Nat.lt_of_not_le hlast), ← Nat.add_assoc, Nat.add_right_comm]
    simp only [Nat.min_eq_right (Nat.le_of_not_le hlast)] at hreach ⊢
    exact hreach (n + 1)

/-- Output of P goes to DOUT where there is space for it. -/
theorem Stream.readRaw_reaches {s : State} {n : Nat} (hroom : (s.doutWrite s.p.toList).dout.length ≤ config.doutDepth) :
    (Stream.working config s k (.readRaw :: ts) sc n).Reaches
      (Stream.working config (s.doutWrite s.p.toList) k ts sc n) :=
  .step Stream.working_tick (Stream.out_reaches hroom)

theorem Stream.load_reaches {s : State} {n : Nat} (hdin : 48 ≤ s.din.length) :
    (Stream.working config s k (.load :: ts) sc n).Reaches
      (Stream.working config { s.dropDin 48 with p := Block.ofBytes (s.din.take 48) } k ts sc n) := by
  refine .of_tick ?_
  rw [Stream.working_tick]
  simp only [Stream.workStep, Stream.working, State.dinRead_eq_dropDin hdin, Stream.advance]

end

/-! A command from its first tick to its last. -/

section
variable {config : Config} {s t : State} {k n : Nat}

theorem numChunks_one {n : Nat} (h : 0 < n) : numChunks n 1 = n := by
  rw [numChunks_eq_ceil (by decide) h]
  simp

/-- INIT_KEYED constructs the object in PHASE Up, and the first absorption leaves it Down. -/
theorem Stream.work_initKeyed_reaches {klen idlen clen : Nat} (hk : k < s.slots.length)
    (h : finishAll k (s.work (.initKeyed k klen idlen clen)) [] (s.takeCmd 4) = some t) :
    (Stream.working config (s.takeCmd 4) k (s.work (.initKeyed k klen idlen clen)) [] n).Reaches
      (Stream.working config t k [] [] (n + s.permutationCount (.initKeyed k klen idlen clen))) := by
  have hnew : (((s.takeCmd 4).onSlot k fun _ => Context.construct .keyed).contextAt k).phase = .up := by
    rw [State.contextAt_onSlot (by exact hk), Context.construct_phase]
  simp only [State.work, List.cons_append, List.nil_append] at h ⊢
  rw [finishAll_of_finish rfl] at h
  obtain ⟨u, hu, hlen, hdown, hreach⟩ := Stream.absorb_reaches (config := config) (by decide) (by simpa using hk) h
  refine .step Stream.working_tick ((hreach n).trans ?_)
  simp only [hnew, reduceCtorEq, if_false, Nat.zero_add, State.permutationCount, List.length_singleton]
  split at hu
  · next hclen =>
    obtain ⟨v, hv, -, -, hreach'⟩ := Stream.absorb_reaches (config := config) (by decide) (by simpa [hlen] using hk) hu
    cases hv
    have hcount : 1 + (numChunks (clen + 0) 1 - 1) = clen := by rw [Nat.add_zero, numChunks_one hclen]; omega
    simp only [hdown, if_true, List.length_nil, hcount] at hreach'
    rw [if_pos hclen, ← Nat.add_assoc]
    exact hreach' _
  · next hclen =>
    cases hu
    obtain rfl : clen = 0 := by omega
    exact .refl _

/-- The work of a ready command runs to its end in the command's effect. -/
theorem Stream.work_reaches {i : Instr} (hready : s.Ready i)
    (hroom : s.dout.length + doutCount i ≤ config.doutDepth) :
    (⟨config, s.takeCmd i.words, some (s.begin i), n⟩ : Stream).Reaches
      ⟨config, effectOf i (s.din.take (dinCount i)) (s.consumed i), none, n + s.permutationCount i⟩ := by
  have hend := finishAll_work hready
  have hout : (effectOf i (s.din.take (dinCount i)) (s.consumed i)).dout.length ≤ config.doutDepth := by
    obtain ⟨-, ⟨y, hy, hlen⟩, -⟩ := exec_moves_of_ready hready (exec_of_ready hready)
    rw [hy, List.length_append, hlen]
    exact hroom
  obtain ⟨hcheck, hdin⟩ := hready
  have hslots := State.check_slots hcheck
  refine Stream.Reaches.trans (τ := Stream.working config _ (i.slotFields.getD 0 0) [] [] _) ?_ Stream.working_nil_reaches
  show (Stream.working config (s.takeCmd i.words) (i.slotFields.getD 0 0) (s.work i) [] n).Reaches _
  cases i with
  | initHash | clone => exact .of_tick Stream.working_tick
  | pload => exact Stream.load_reaches hdin
  | pperm count => exact Stream.permuteRaw_reaches
  | pread => exact Stream.readRaw_reaches hout
  | squeeze k len | squeezeKey k len =>
    obtain ⟨u, hu, hreach⟩ := Stream.squeeze_reaches hout hend
    cases hu
    exact hreach n
  | encrypt k len | decrypt k len =>
    obtain ⟨u, hu, hreach⟩ := Stream.crypt_reaches hout hend
    cases hu
    exact hreach n
  | ratchet k =>
    rw [State.work, finishAll_of_finish rfl, finishAll_of_finish rfl, finishAll_of_finish rfl] at hend
    rw [← Option.some_inj.1 hend]
    exact (Stream.up_reaches Stream.working_tick).trans
      ((Stream.silent_reaches (u := .saveScratch ratchetLength) rfl).trans (Stream.silent_reaches (u := .feedScratch) rfl))
  | absorb k len =>
    rw [State.work] at hend
    obtain ⟨u, hu, -, -, hreach⟩ := Stream.absorb_reaches (config := config) (s := s.takeCmd 2) (Mode.absorbRate_pos _)
      (hslots k (List.mem_singleton_self k)) hend
    cases hu
    have hcount : s.permutationCount (.absorb k len) = (if (s.contextAt k).phase = .down then 1 else 0) +
        (numChunks len (s.contextAt k).mode.absorbRate - 1) := Nat.add_sub_assoc (numChunks_pos ..) _
    rw [hcount]
    exact hreach n
  | initKeyed k klen idlen clen =>
    exact Stream.work_initKeyed_reaches (hslots k (List.mem_singleton_self k)) hend

end

/-- Settles O53: the first tick takes the command, and its work runs to its end. -/
theorem readyCommandsComplete : Obligations.ReadyCommandsComplete := by
  intro σ i rest hbusy hfault hdecode hready hroom
  obtain ⟨config, s, busy, n⟩ := σ
  cases hbusy
  have hfetch := (Stream.tick_of_idle rfl).trans (Stream.fetch_of_command hfault hdecode hready.1)
  obtain ⟨m, hm⟩ := Stream.Reaches.step hfetch (Stream.work_reaches hready hroom)
  exact ⟨m, _, exec_of_ready hready, hm⟩

end Sys2Proof.Machine
